-- ==== Sys2Proof/Word.lean ====
section
/-!
DEFINITION. The bit-vector widths of the block CFX (spec/00_scope.md R5, R7).

Every quantity of the block is unsigned and bit 0 is the least significant bit (R7).
-/

namespace Sys2Proof

/-- One character code, or one byte: `CHARW` = 8 bits (00_scope.md R5, R9). -/
abbrev Byte := BitVec 8

/-- A command word: `CWW` = 16 bits (00_scope.md R5, 30_encoding.md R80). -/
abbrev CmdWord := BitVec 16

/-- A record as the ports show it: `RECW` = 80 bits (00_scope.md R5, 10_state.md R21). -/
abbrev RecWord := BitVec 80

/-- The significant bits of a record: `SIGW` = 74 bits (00_scope.md R5, 10_state.md R21). -/
abbrev SigWord := BitVec 74

/-- A result: `RESW` = 48 bits (00_scope.md R5, 10_state.md R28). -/
abbrev ResWord := BitVec 48

/-- Sixteen characters on a port: 128 bits (10_state.md R31). -/
abbrev StrWord := BitVec 128

/-- A string of `STRLEN` = 16 characters, index 0 leftmost (00_scope.md R5, R9). -/
abbrev Chars := Vector Byte 16

end Sys2Proof
end

