-- ==== Sys2Proof/Config.lean ====
section
/-!
DEFINITION. The parameters of the block (spec/00_scope.md R5) that a rule names, and the values this machine has.

With the parameters at their defaults every command has exactly one next state (93_implementation_defined.md,
end of part 1), so no value is left free and this file holds no opaque constant.
-/

namespace Sys2Proof

/-- Parameter `DAY_OVERFLOW` (00_scope.md R5; 43_codec.md R167; 93_implementation_defined.md U3): what parse stores in
`DAY` when the day value is above 31. -/
inductive DayOverflow where
  /-- `TRUNCATE`: the day value modulo 32, the spec's default. -/
  | truncate
  /-- `ANY`: an arbitrary 5-bit value. A statement over `ANY` quantifies over `value`. -/
  | any (value : BitVec 5)
  deriving DecidableEq, Repr

/-- Parameter `NUMERIC_FALLBACK` (00_scope.md R5, R10; 93_implementation_defined.md U4): what a numeric field becomes
when one of its characters is unmappable. -/
inductive NumericFallback where
  /-- `FIELD_ZERO`: the whole field is 0, the spec's default. -/
  | fieldZero
  /-- `CHAR_ZERO`: only the unmappable character counts as the digit 0. -/
  | charZero
  deriving DecidableEq, Repr

/-- The two parameters that change values computed by the source's own functions (92_eei_decisions.md D13, D14).
The pure functions of the codec take them as an argument, so that a claim can be made under every choice. -/
structure CodecParams where
  dayOverflow : DayOverflow
  numericFallback : NumericFallback
  deriving DecidableEq, Repr

/-- The spec's defaults, which the machine runs: `DAY_OVERFLOW` = `TRUNCATE` (log 4), `NUMERIC_FALLBACK` = `FIELD_ZERO`
(log 5). UNVERIFIED for the repository's own code: 91_not_in_source.md N18, N20. -/
def Config.params : CodecParams := { dayOverflow := .truncate, numericFallback := .fieldZero }

/-- `NUL`, the null sentinel character (00_scope.md R5, R9; 93_implementation_defined.md GK2; log 10). -/
abbrev Config.NUL : Byte := 0x00#8

/-- `FALLBACK_LETTER` `'a'`, what an index above 25 renders as (00_scope.md R5; 41_alphabet_tables.md R121). -/
abbrev Config.fallbackLetter : Byte := 0x61#8

/-- `FEMALE_OFFSET` (00_scope.md R5): added to the day in the string for a female. -/
abbrev Config.femaleOffset : Nat := 40

/-- What a cell of the string buffer that the memory list does not name reads as: its reset contents, `NUL`
(10_state.md R37; log 7). -/
abbrev Config.unlistedByte : Byte := 0x00#8

end Sys2Proof
end

