-- ==== Sys2Proof/Syntax.lean ====
section
/-!
DEFINITION. The 19 commands of CFXCMD-1 (spec/30_encoding.md R83) and the rows of the opcode map.
-/

namespace Sys2Proof

/-- A command, one constructor for each row of the opcode map (30_encoding.md R83). A character or number operand is
the word's `imm8` as it stands (R82). The payload of `ldstr` and `ldraw` is no operand of the word: it arrives on the
ports `SIN`, `LIN` and `DIN` (R81, R86). -/
inductive Instr where
  /-- No operation (40_transfer.md R110). -/
  | nop
  /-- Load the string buffer from the host (40_transfer.md R111). -/
  | ldstr
  /-- Construct a record from a raw integer (40_transfer.md R112). -/
  | ldraw
  /-- Letter to index (41_alphabet_tables.md R126). -/
  | l2i (c : Byte)
  /-- Index to letter (41_alphabet_tables.md R127). -/
  | i2l (n : Byte)
  /-- Letter to month (41_alphabet_tables.md R128). -/
  | l2m (c : Byte)
  /-- Month to letter (41_alphabet_tables.md R129). -/
  | m2l (n : Byte)
  /-- Digit to substitution letter (42_omocodia.md R146). -/
  | d2l (c : Byte)
  /-- Substitution letter to digit (42_omocodia.md R147). -/
  | l2d (c : Byte)
  /-- Eligibility mask of the string buffer (42_omocodia.md R148). -/
  | emask
  /-- Parse the string buffer into the record register (43_codec.md R173). -/
  | parse
  /-- Format the record register into the string buffer (43_codec.md R178). -/
  | format
  /-- Accessor: name/surname block (44_accessors.md R201). -/
  | gname
  /-- Accessor: year (44_accessors.md R202). -/
  | gyear
  /-- Accessor: month (44_accessors.md R203). -/
  | gmonth
  /-- Accessor: day (44_accessors.md R204). -/
  | gday
  /-- Accessor: gender (44_accessors.md R205). -/
  | ggen
  /-- Accessor: municipality (44_accessors.md R206). -/
  | gmuni
  /-- Accessor: check letter (44_accessors.md R207). -/
  | gchk
  deriving DecidableEq, Repr

/-- The four formats (30_encoding.md R81). -/
inductive Format where
  | z | c | n | p
  deriving DecidableEq, Repr

/-- Formats C and N use `imm8`; in formats Z and P it is reserved (30_encoding.md R81). -/
def Format.takesImmediate : Format → Bool
  | .z => false
  | .c => true
  | .n => true
  | .p => false

/-- One row of the opcode map: a word `w` selects it when `w & mask = pattern` (30_encoding.md R83, where the pattern
is called `match`). -/
structure OpRow where
  mnemonic : String
  format   : Format
  pattern  : CmdWord
  mask     : CmdWord
  deriving DecidableEq, Repr

/-- The row of the opcode map that each command is (30_encoding.md R83). -/
def Instr.row : Instr → OpRow
  | .nop    => ⟨"NOP", .z, 0x0000, 0xFFFF⟩
  | .ldstr  => ⟨"LDSTR", .p, 0x0100, 0xFFFF⟩
  | .ldraw  => ⟨"LDRAW", .p, 0x0200, 0xFFFF⟩
  | .l2i _  => ⟨"L2I", .c, 0x1000, 0xFF00⟩
  | .i2l _  => ⟨"I2L", .n, 0x1100, 0xFF00⟩
  | .l2m _  => ⟨"L2M", .c, 0x1200, 0xFF00⟩
  | .m2l _  => ⟨"M2L", .n, 0x1300, 0xFF00⟩
  | .d2l _  => ⟨"D2L", .c, 0x2000, 0xFF00⟩
  | .l2d _  => ⟨"L2D", .c, 0x2100, 0xFF00⟩
  | .emask  => ⟨"EMASK", .z, 0x2200, 0xFFFF⟩
  | .parse  => ⟨"PARSE", .z, 0x3000, 0xFFFF⟩
  | .format => ⟨"FORMAT", .z, 0x3100, 0xFFFF⟩
  | .gname  => ⟨"GNAME", .z, 0x4000, 0xFFFF⟩
  | .gyear  => ⟨"GYEAR", .z, 0x4100, 0xFFFF⟩
  | .gmonth => ⟨"GMONTH", .z, 0x4200, 0xFFFF⟩
  | .gday   => ⟨"GDAY", .z, 0x4300, 0xFFFF⟩
  | .ggen   => ⟨"GGEN", .z, 0x4400, 0xFFFF⟩
  | .gmuni  => ⟨"GMUNI", .z, 0x4500, 0xFFFF⟩
  | .gchk   => ⟨"GCHK", .z, 0x4600, 0xFFFF⟩

/-- One command of each row, in the order of the opcode map; an immediate command stands with `imm8` = 0. -/
def Instr.oneOfEach : List Instr :=
  [.nop, .ldstr, .ldraw, .l2i 0, .i2l 0, .l2m 0, .m2l 0, .d2l 0, .l2d 0, .emask, .parse, .format,
   .gname, .gyear, .gmonth, .gday, .ggen, .gmuni, .gchk]

/-- The 19 rows of the opcode map (30_encoding.md R83). -/
def opTable : List OpRow := Instr.oneOfEach.map Instr.row

/-- The immediate operand a command carries, if it has one. -/
def Instr.operand : Instr → Option Byte
  | .l2i c => some c
  | .i2l n => some n
  | .l2m c => some c
  | .m2l n => some n
  | .d2l c => some c
  | .l2d c => some c
  | .nop | .ldstr | .ldraw | .emask | .parse | .format
  | .gname | .gyear | .gmonth | .gday | .ggen | .gmuni | .gchk => none

end Sys2Proof
end

