-- ==== Sys2Proof/WellFormed.lean ====
section
/-!
DEFINITION. Which command words are legal (spec/30_encoding.md R83, R84) and which commands are well formed.

A command's operand has the width of `imm8` by its type (R82), so what is left to check of a command is that it has
an operand exactly when its format takes one. The two checks that can fail are on the raw word: its opcode byte is in
the table (R84 case a), and its reserved byte is 0 (R84 case b).
-/

namespace Sys2Proof

/-- A command word cut into its two fields (30_encoding.md R80). -/
structure RawCommand where
  op   : Byte
  imm8 : Byte
  deriving DecidableEq, Repr

/-- The fields of a word: `op` = bits 15:8, `imm8` = bits 7:0 (30_encoding.md R80). -/
def RawCommand.ofWord (w : CmdWord) : RawCommand :=
  { op := w.extractLsb' 8 8, imm8 := w.extractLsb' 0 8 }

/-- The row whose opcode byte is `op`, if there is one (30_encoding.md R83). -/
def RawCommand.row? (r : RawCommand) : Option OpRow :=
  opTable.find? fun row => row.pattern.extractLsb' 8 8 == r.op

/-- First check: the opcode byte is in the table; it fails on the words of 30_encoding.md R84 (a). -/
def RawCommand.knownOpcode (r : RawCommand) : Bool := r.row?.isSome

/-- Second check: a format Z or P command has `imm8` = 0x00; it fails on the words of 30_encoding.md R84 (b). -/
def RawCommand.reservedIsZero (r : RawCommand) : Bool :=
  match r.row? with
  | some row => row.format.takesImmediate || r.imm8 == 0x00#8
  | none     => true

/-- A legal command word passes both checks (30_encoding.md R84). -/
def RawCommand.legal (r : RawCommand) : Bool := r.knownOpcode && r.reservedIsZero

/-- A word selects a row when `w & mask = match` (30_encoding.md R83). -/
def OpRow.selectedBy (row : OpRow) (w : CmdWord) : Bool := w &&& row.mask == row.pattern

/-- A command is well formed when it carries an operand exactly if its format takes one (30_encoding.md R81). -/
def Instr.wellFormed (i : Instr) : Bool := i.operand.isSome == i.row.format.takesImmediate

/-- Why a command word is illegal (30_encoding.md R84). The block reports both as `ILLEGAL_COMMAND` (60_exceptions.md
R222); the name is kept for a reader of the decoder. -/
inductive IllegalWord where
  /-- R84 (a): the opcode byte is not in the table. -/
  | undefinedOpcode (op : Byte)
  /-- R84 (b): a format Z or format P command whose `imm8` is not 0x00. -/
  | reservedNotZero (op imm8 : Byte)
  deriving DecidableEq, Repr

end Sys2Proof
end

