-- ==== Sys2Proof/Decode.lean ====
section
/-!
DEFINITION. The decoder (spec/30_encoding.md R90), total on any 16-bit word, and the encoder beside it (R80, R83).
-/

namespace Sys2Proof

/-- A command with no immediate is decoded only when the reserved byte is 0x00 (30_encoding.md R84, R90). -/
def decodeReserved (r : RawCommand) (i : Instr) : Except IllegalWord Instr :=
  if r.imm8 = 0x00#8 then .ok i else .error (.reservedNotZero r.op r.imm8)

/-- The fields of a word make a command, or are illegal by name (30_encoding.md R90). -/
def decodeRaw (r : RawCommand) : Except IllegalWord Instr :=
  match r.op with
  | 0x00#8 => decodeReserved r .nop
  | 0x01#8 => decodeReserved r .ldstr
  | 0x02#8 => decodeReserved r .ldraw
  | 0x10#8 => .ok (.l2i r.imm8)
  | 0x11#8 => .ok (.i2l r.imm8)
  | 0x12#8 => .ok (.l2m r.imm8)
  | 0x13#8 => .ok (.m2l r.imm8)
  | 0x20#8 => .ok (.d2l r.imm8)
  | 0x21#8 => .ok (.l2d r.imm8)
  | 0x22#8 => decodeReserved r .emask
  | 0x30#8 => decodeReserved r .parse
  | 0x31#8 => decodeReserved r .format
  | 0x40#8 => decodeReserved r .gname
  | 0x41#8 => decodeReserved r .gyear
  | 0x42#8 => decodeReserved r .gmonth
  | 0x43#8 => decodeReserved r .gday
  | 0x44#8 => decodeReserved r .ggen
  | 0x45#8 => decodeReserved r .gmuni
  | 0x46#8 => decodeReserved r .gchk
  | _      => .error (.undefinedOpcode r.op)

/-- The decoder: the only place where a command word is interpreted (30_encoding.md R90). -/
def decode (w : CmdWord) : Except IllegalWord Instr := decodeRaw (RawCommand.ofWord w)

/-- `CW = (op << 8) | imm8` (30_encoding.md R80, R88). -/
def commandWord (op imm8 : Byte) : CmdWord := op ++ imm8

/-- The encoder: the command word of a command (30_encoding.md R83, R88). -/
def encode : Instr → CmdWord
  | .nop    => commandWord 0x00 0x00
  | .ldstr  => commandWord 0x01 0x00
  | .ldraw  => commandWord 0x02 0x00
  | .l2i c  => commandWord 0x10 c
  | .i2l n  => commandWord 0x11 n
  | .l2m c  => commandWord 0x12 c
  | .m2l n  => commandWord 0x13 n
  | .d2l c  => commandWord 0x20 c
  | .l2d c  => commandWord 0x21 c
  | .emask  => commandWord 0x22 0x00
  | .parse  => commandWord 0x30 0x00
  | .format => commandWord 0x31 0x00
  | .gname  => commandWord 0x40 0x00
  | .gyear  => commandWord 0x41 0x00
  | .gmonth => commandWord 0x42 0x00
  | .gday   => commandWord 0x43 0x00
  | .ggen   => commandWord 0x44 0x00
  | .gmuni  => commandWord 0x45 0x00
  | .gchk   => commandWord 0x46 0x00

/-- The word that the port `CW` carries for the low `nbits` bits of `w`, the bits above them 0. -/
def tableWord (nbits w : Nat) : CmdWord := BitVec.ofNat 16 (w % 2 ^ nbits)

/-- What the decoder reads from an instruction whose `nbits` bits are `w`. Every command is one 16-bit word
(30_encoding.md R80, R86), so a value that does not fit 16 bits is no command. -/
def decodeTableWord (nbits w : Nat) : Option Instr :=
  if w % 2 ^ nbits < 2 ^ 16 then (decode (tableWord nbits w)).toOption else none

end Sys2Proof
end

