-- ==== Sys2Proof/Machine/State.lean ====
section
/-!
DEFINITION. The state of one codec instance (spec/10_state.md R20), the host's side of it, and reset (R37, R250).
-/

namespace Sys2Proof.Machine

/-- The values of the status register `ST` (60_exceptions.md R220). -/
inductive Status where
  /-- Code 0: the command completed. -/
  | ok
  /-- Code 1: PARSE found a wrong length or a non-alphanumeric character. -/
  | invalidFormat
  /-- Code 2: the command word selects no command. -/
  | illegalCommand
  /-- Code 3: the operand lies outside the domain on which the operation is defined. -/
  | badOperand
  deriving DecidableEq, Repr

/-- The four input ports (10_state.md R31). -/
structure Ports where
  /-- `CW`: the command word. -/
  cw  : CmdWord
  /-- `DIN`: a raw record value, sampled by LDRAW. -/
  din : RecWord
  /-- `SIN`: sixteen characters, sampled by LDSTR. -/
  sin : StrWord
  /-- `LIN`: the length of the host's string, sampled by LDSTR. -/
  lin : Byte
  deriving DecidableEq, Repr

/-- What the host does next (70_reset_and_hazards.md R256). -/
inductive HostEvent where
  /-- Issue a command: one command word with the values on the payload ports. -/
  | command (p : Ports)
  /-- The reset event, between commands (R250). -/
  | reset
  /-- Two hosts drive the command port, or the ports change while a command is being accepted. The spec defines no
  outcome (20_memory.md R61; 93_implementation_defined.md U16, treatment `stuck`). -/
  | portConflict
  /-- A reset during a command. The spec does not define it (R250; 93_implementation_defined.md U17). -/
  | resetDuringCommand
  deriving DecidableEq, Repr

/-- The string buffer `SB` as a list of cells (index, character) with rising indices below 16 and no cell that holds
what an unlisted one reads as (`Config.unlistedByte`); see `Memory.wf` (10_state.md R26; 20_memory.md R50; log 7). -/
abbrev Memory := List Host.Cell

/-- The state of one instance: the six registers of 10_state.md R20, then two fields of the model's own that stand for
the host (log 1). -/
@[ext]
structure State where
  /-- `REC`: its 74 implemented bits. Bits 79:74 are hardwired to 0 and have no storage (R21; log 6). -/
  recBits : SigWord
  /-- `RV`: `REC` holds a record (R25). -/
  rv    : Bool
  /-- `SB[0..15]`: the string buffer (R26). -/
  sb    : Memory
  /-- `SLEN`: the declared length of the loaded string (R27). -/
  slen  : Byte
  /-- `RES`: the result of the latest lookup, mask or accessor command (R28). -/
  res   : ResWord
  /-- `ST`: the status of the latest command other than NOP (R29). -/
  st    : Status
  /-- MODEL'S OWN: the values on the input ports when the latest command was accepted (R31; log 1). -/
  ports : Ports
  /-- MODEL'S OWN: what the host does next, oldest first (R24; log 1). -/
  inbox : List HostEvent
  deriving DecidableEq, Repr

/-- Why the machine stops. No command raises a fault: the block has no trap (60_exceptions.md R226). Both reasons are
actions of the host for which the spec defines no outcome. -/
inductive Fault where
  /-- Raised by the step on `HostEvent.portConflict` (20_memory.md R61; U16; log 8). Safe: the model stops where the
  spec says nothing. -/
  | portConflict
  /-- Raised by the step on `HostEvent.resetDuringCommand` (70_reset_and_hazards.md R250; U17; log 9). Safe: the model
  stops where the spec says nothing. -/
  | resetDuringCommand
  deriving DecidableEq, Repr

/-- Why the model gives an instruction no meaning. A command the block refuses is no refusal of the model: it is a next
state with a status (60_exceptions.md R223; log 3). -/
inductive Refusal where
  /-- Raised by an arm of `exec` whose instruction has no meaning yet; no arm is left in that state. Safe: nothing can
  be proved of the instruction. -/
  | notModelled (mnemonic : String)
  deriving DecidableEq, Repr

/-- The input ports of an idle host: all zero. `CW` = 0x0000 is NOP, "so an idle command port that presents zeros
changes nothing" (30_encoding.md R85). DESIGN CHOICE (log 2): the spec gives no port value at reset. -/
def Ports.idle : Ports := { cw := 0, din := 0, sin := 0, lin := 0 }

/-- The machine right after reset (10_state.md R37; 70_reset_and_hazards.md R250): every register at its stated value.
The host's fields are at values of the model's own: idle ports, nothing presented (DESIGN CHOICE, log 2). -/
def State.reset : State :=
  { recBits := 0, rv := false, sb := [], slen := 0, res := 0, st := .ok, ports := .idle, inbox := [] }

end Sys2Proof.Machine
end

