-- ==== Sys2Proof/Machine/Flags.lean ====
section
/-!
DEFINITION. The two flags of the block, `ST` and `RV` (spec/10_state.md R25, R29; spec/60_exceptions.md R220). There are
no condition codes: no command compares or branches (R29).
-/

namespace Sys2Proof.Machine

/-- The 2-bit code that `STO` shows (60_exceptions.md R220). -/
def Status.code : Status → BitVec 2
  | .ok             => 0
  | .invalidFormat  => 1
  | .illegalCommand => 2
  | .badOperand     => 3

/-- `ST <- code(S)`: not sticky, the latest status replaces the one before (10_state.md R29). -/
def State.writeST (s : State) (x : Status) : State := { s with st := x }

/-- `RV <- b` (10_state.md R25). -/
def State.writeRV (s : State) (b : Bool) : State := { s with rv := b }

/-- The bit that `RVO` shows (10_state.md R30). -/
def rvBit (b : Bool) : BitVec 1 := if b then 1#1 else 0#1

end Sys2Proof.Machine
end

