-- ==== Sys2Proof/Machine/Operands.lean ====
section
/-!
DEFINITION. Byte lanes, character classes, decimal helpers and the fields of a record
(spec/10_state.md R22, R32; spec/00_scope.md R9, R10).
-/

namespace Sys2Proof.Machine

/-! ### Byte lanes (10_state.md R32) -/

/-- Byte `k` of a value wider than 8 bits: bits 8k+7:8k (10_state.md R32). -/
def lane {w : Nat} (v : BitVec w) (k : Nat) : Byte := v.extractLsb' (8 * k) 8

/-- The sixteen characters on a string port: character i at bits 8i+7:8i (10_state.md R31, R32). -/
def charsOfWord (v : StrWord) : Chars := Vector.ofFn fun i => lane v i

/-- The string port that shows sixteen characters, `SOUT[8i+7:8i] = SB[i]` (10_state.md R30, R32). -/
def wordOfChars (s : Chars) : StrWord :=
  s[15] ++ s[14] ++ s[13] ++ s[12] ++ s[11] ++ s[10] ++ s[9] ++ s[8]
    ++ s[7] ++ s[6] ++ s[5] ++ s[4] ++ s[3] ++ s[2] ++ s[1] ++ s[0]

/-- The ten-byte image of a record, little-endian: `bk = r[8k+7:8k]` (20_memory.md R52, `REC_BYTE_ORDER`; log 11). -/
def recordImage (r : RecWord) : Vector Byte 10 := Vector.ofFn fun k => lane r k

/-- The record whose ten-byte image is `b` (20_memory.md R52). -/
def recordOfImage (b : Vector Byte 10) : RecWord :=
  b[9] ++ b[8] ++ b[7] ++ b[6] ++ b[5] ++ b[4] ++ b[3] ++ b[2] ++ b[1] ++ b[0]

/-! ### Character classes (00_scope.md R9) -/

/-- `isdigit(c)` (00_scope.md R9). -/
def isdigit (c : Byte) : Bool := decide (0x30#8 ≤ c) && decide (c ≤ 0x39#8)

/-- `isupper(c)` (00_scope.md R9). -/
def isupper (c : Byte) : Bool := decide (0x41#8 ≤ c) && decide (c ≤ 0x5A#8)

/-- `islower(c)` (00_scope.md R9). -/
def islower (c : Byte) : Bool := decide (0x61#8 ≤ c) && decide (c ≤ 0x7A#8)

/-- `isalpha(c)` (00_scope.md R9). -/
def isalpha (c : Byte) : Bool := isupper c || islower c

/-- `isalnum(c)` (00_scope.md R9): codes 0x80 to 0xFF are in no class. -/
def isalnum (c : Byte) : Bool := isalpha c || isdigit c

/-- `upper(c)` (00_scope.md R9). -/
def upper (c : Byte) : Byte := if islower c then c - 0x20#8 else c

/-! ### Decimal helpers (00_scope.md R10) -/

/-- `dig(v, k) = (v div 10^k) mod 10`, the decimal digit of weight 10^k (00_scope.md R10). -/
def dig (v k : Nat) : Fin 10 := ⟨v / 10 ^ k % 10, Nat.mod_lt _ (by decide)⟩

/-- `chr(d) = 0x30 + d`, the digit character of a digit value (00_scope.md R10). -/
def chr (d : Fin 10) : Byte := BitVec.ofNat 8 (0x30 + d.val)

/-- What a character of a numeric field counts as when it is summed: a digit its value, any other character 0. Only
`CHAR_ZERO` ever sums a character that is no digit (00_scope.md R10; 92_eei_decisions.md D14). -/
def digitValue (c : Byte) : Nat := if isdigit c then c.toNat - 0x30 else 0

/-- The sum over j of (cj - 0x30) * 10^(n-j): the leftmost character has the highest weight (00_scope.md R10). -/
def decimalSum : List Byte → Nat
  | []      => 0
  | c :: cs => digitValue c * 10 ^ cs.length + decimalSum cs

/-- `decn(c1, .., cn)` (00_scope.md R10), with the parameter `NUMERIC_FALLBACK` as an argument: under `FIELD_ZERO` one
character that is no digit makes the whole number 0. -/
def decn (fallback : NumericFallback) (cs : List Byte) : Nat :=
  match fallback with
  | .fieldZero => if cs.all isdigit then decimalSum cs else 0
  | .charZero  => decimalSum cs

/-- `dec2` is `decn` with n = 2 (00_scope.md R10). -/
def dec2 (fallback : NumericFallback) (c1 c2 : Byte) : Nat := decn fallback [c1, c2]

/-- `dec3` is `decn` with n = 3 (00_scope.md R10). -/
def dec3 (fallback : NumericFallback) (c1 c2 c3 : Byte) : Nat := decn fallback [c1, c2, c3]

/-! ### The fields of a record (10_state.md R22) -/

/-- `CHK`, bits 4:0: check letter index (10_state.md R22). -/
def chkField (r : RecWord) : BitVec 5 := r.extractLsb' 0 5

/-- `MNUM`, bits 14:5: municipality number (10_state.md R22). -/
def mnumField (r : RecWord) : BitVec 10 := r.extractLsb' 5 10

/-- `MLET`, bits 19:15: municipality letter index (10_state.md R22). -/
def mletField (r : RecWord) : BitVec 5 := r.extractLsb' 15 5

/-- `GEN`, bit 20: 0 = female, 1 = male (10_state.md R22). -/
def genField (r : RecWord) : BitVec 1 := r.extractLsb' 20 1

/-- `DAY`, bits 25:21 (10_state.md R22). -/
def dayField (r : RecWord) : BitVec 5 := r.extractLsb' 21 5

/-- `MON`, bits 29:26 (10_state.md R22). -/
def monField (r : RecWord) : BitVec 4 := r.extractLsb' 26 4

/-- `YEAR`, bits 36:30 (10_state.md R22). -/
def yearField (r : RecWord) : BitVec 7 := r.extractLsb' 30 7

/-- `NAME`, bits 66:37: six 5-bit letter indices (10_state.md R22). -/
def nameField (r : RecWord) : BitVec 30 := r.extractLsb' 37 30

/-- The group of `NAME` for string index `j`, the most significant group first: string index 0 is `NAME[29:25]`, string
index 5 is `NAME[4:0]` (10_state.md R22). -/
def nameGroup (r : RecWord) (j : Fin 6) : BitVec 5 := (nameField r).extractLsb' (25 - 5 * j.val) 5

/-- `OMASK`, bits 73:67: omocodia bitmask (10_state.md R22). -/
def omaskField (r : RecWord) : BitVec 7 := r.extractLsb' 67 7

/-- `PAD`, bits 79:74: always 0 in `REC` (10_state.md R21, R22). -/
def padField (r : RecWord) : BitVec 6 := r.extractLsb' 74 6

end Sys2Proof.Machine
end

