-- ==== Sys2Proof/Machine/Tables.lean ====
section
/-!
DEFINITION. The alphabet tables and the omocodia substitution as pure functions
(spec/41_alphabet_tables.md R120 to R123; spec/42_omocodia.md R140, R141, R143).
-/

namespace Sys2Proof.Machine

/-- `l2i(c)`, the source's `letter_to_index` (41_alphabet_tables.md R120): a code that is no letter gives 0. -/
def l2i (c : Byte) : BitVec 5 := if isalpha c then (upper c - 0x41#8).setWidth 5 else 0#5

/-- `i2l(n)`, the source's `index_to_letter` (41_alphabet_tables.md R121): an index above 25 gives `'a'`. -/
def i2l (n : Nat) : Byte := if n ≤ 25 then BitVec.ofNat 8 (0x41 + n) else Config.fallbackLetter

/-- `l2m(c)`, the source's `letter_to_month` (41_alphabet_tables.md R122): the month alphabet is
A, B, C, D, E, H, L, M, P, R, S, T; every other code gives 0. -/
def l2m (c : Byte) : BitVec 4 :=
  match upper c with
  | 0x41#8 => 1#4
  | 0x42#8 => 2#4
  | 0x43#8 => 3#4
  | 0x44#8 => 4#4
  | 0x45#8 => 5#4
  | 0x48#8 => 6#4
  | 0x4C#8 => 7#4
  | 0x4D#8 => 8#4
  | 0x50#8 => 9#4
  | 0x52#8 => 10#4
  | 0x53#8 => 11#4
  | 0x54#8 => 12#4
  | _      => 0#4

/-- `m2l(n)`, the source's `month_to_letter` (41_alphabet_tables.md R123): a number outside 1 to 12 gives `NUL`. -/
def m2l (n : Nat) : Byte :=
  match n with
  | 1  => 0x41#8
  | 2  => 0x42#8
  | 3  => 0x43#8
  | 4  => 0x44#8
  | 5  => 0x45#8
  | 6  => 0x48#8
  | 7  => 0x4C#8
  | 8  => 0x4D#8
  | 9  => 0x50#8
  | 10 => 0x52#8
  | 11 => 0x53#8
  | 12 => 0x54#8
  | _  => Config.NUL

/-- The table `T_D2L`, indexed by the digit value: L, M, N, P, Q, R, S, T, U, V (20_memory.md R50; 42_omocodia.md R142). -/
def substitutionLetter (d : Fin 10) : Byte :=
  match d with
  | 0 => 0x4C#8
  | 1 => 0x4D#8
  | 2 => 0x4E#8
  | 3 => 0x50#8
  | 4 => 0x51#8
  | 5 => 0x52#8
  | 6 => 0x53#8
  | 7 => 0x54#8
  | 8 => 0x55#8
  | 9 => 0x56#8

/-- `d2l(d)`, the source's `digit_to_letter` (42_omocodia.md R140): undefined outside the ten digit characters. -/
def d2l (c : Byte) : Option Byte :=
  match c with
  | 0x30#8 => some (substitutionLetter 0)
  | 0x31#8 => some (substitutionLetter 1)
  | 0x32#8 => some (substitutionLetter 2)
  | 0x33#8 => some (substitutionLetter 3)
  | 0x34#8 => some (substitutionLetter 4)
  | 0x35#8 => some (substitutionLetter 5)
  | 0x36#8 => some (substitutionLetter 6)
  | 0x37#8 => some (substitutionLetter 7)
  | 0x38#8 => some (substitutionLetter 8)
  | 0x39#8 => some (substitutionLetter 9)
  | _      => none

/-- `l2d(c)`, the source's `letter_to_digit` (42_omocodia.md R141): the digit CHARACTER, or `NUL` for every code that is
not one of the ten substitution letters in either case. -/
def l2d (c : Byte) : Byte :=
  match upper c with
  | 0x4C#8 => 0x30#8
  | 0x4D#8 => 0x31#8
  | 0x4E#8 => 0x32#8
  | 0x50#8 => 0x33#8
  | 0x51#8 => 0x34#8
  | 0x52#8 => 0x35#8
  | 0x53#8 => 0x36#8
  | 0x54#8 => 0x37#8
  | 0x55#8 => 0x38#8
  | 0x56#8 => 0x39#8
  | _      => Config.NUL

/-- The seven digit-eligible positions in string order (42_omocodia.md R143). -/
def eligiblePositions : List (Fin 16) := [6, 7, 9, 10, 12, 13, 14]

/-- One round of the mask loop: shift left, then set the low bit for a letter (42_omocodia.md R143). -/
def maskShiftIn (m : BitVec 7) (c : Byte) : BitVec 7 := (m <<< 1) ||| (if isalpha c then 1#7 else 0#7)

/-- `emask(s)`, the source's `compute_eligibility_mask` (42_omocodia.md R143). -/
def emask (s : Chars) : BitVec 7 := eligiblePositions.foldl (fun m p => maskShiftIn m s[p]) 0#7

end Sys2Proof.Machine
end

