-- ==== Sys2Proof/Machine/RecordCodec.lean ====
section
/-!
DEFINITION. `parse` and `format` as pure functions, and the records they are inverse on
(spec/43_codec.md R160 to R181).
-/

namespace Sys2Proof.Machine

/-! ### parse -/

/-- The single error kind of the taxonomy (60_exceptions.md R221). -/
inductive CodecError where
  | invalidFormat
  deriving DecidableEq, Repr

/-- `valid16(n, s)`: the declared length is 16 and every character is alphanumeric (43_codec.md R160). -/
def valid16 (n : Nat) (s : Chars) : Bool := n == 16 && s.toList.all isalnum

/-- `rd(s, m, p, b)`: the character, reverse-substituted when its mask bit is 1 (43_codec.md R162). -/
def reverseSubstituted (s : Chars) (m : BitVec 7) (p : Fin 16) (b : Nat) : Byte :=
  if m.getLsbD b then l2d s[p] else s[p]

/-- Step 2, the name/surname block, the most significant group first (43_codec.md R163). -/
def parseName (s : Chars) : BitVec 30 :=
  l2i s[0] ++ l2i s[1] ++ l2i s[2] ++ l2i s[3] ++ l2i s[4] ++ l2i s[5]

/-- Step 3, the year (43_codec.md R164). -/
def parseYear (fallback : NumericFallback) (s : Chars) : Nat :=
  let m := emask s
  dec2 fallback (reverseSubstituted s m 6 6) (reverseSubstituted s m 7 5)

/-- The two-digit day+gender value `v` of step 5 (43_codec.md R166). -/
def dayGenderValue (fallback : NumericFallback) (s : Chars) : Nat :=
  let m := emask s
  dec2 fallback (reverseSubstituted s m 9 4) (reverseSubstituted s m 10 3)

/-- `dayval` and `gen` from `v`: above 39 is female with 40 subtracted (43_codec.md R166). -/
def splitDayGender (v : Nat) : Nat × BitVec 1 := if v > 39 then (v - Config.femaleOffset, 0#1) else (v, 1#1)

/-- What `DAY` stores for a day value (43_codec.md R167): the value itself when the field can hold it; above 31 the
parameter `DAY_OVERFLOW` decides. -/
def storedDay (overflow : DayOverflow) (dayval : Nat) : BitVec 5 :=
  match overflow with
  | .truncate  => BitVec.ofNat 5 (dayval % 32)
  | .any value => if dayval ≤ 31 then BitVec.ofNat 5 dayval else value

/-- Step 7, the municipality number (43_codec.md R169). -/
def parseMnum (fallback : NumericFallback) (s : Chars) : Nat :=
  let m := emask s
  dec3 fallback (reverseSubstituted s m 12 2) (reverseSubstituted s m 13 1) (reverseSubstituted s m 14 0)

/-- The assembly of the nine fields: OMASK, NAME, YEAR, MON, DAY, GEN, MLET, MNUM, CHK from bit 73 down
(43_codec.md R171; 10_state.md R22). -/
def assemble (omask : BitVec 7) (name : BitVec 30) (year : BitVec 7) (mon : BitVec 4) (day : BitVec 5) (gen : BitVec 1)
    (mlet : BitVec 5) (mnum : BitVec 10) (chk : BitVec 5) : SigWord :=
  omask ++ name ++ year ++ mon ++ day ++ gen ++ mlet ++ mnum ++ chk

/-- `parse_ok(s)`: the 74 significant bits of the record of a string (43_codec.md R161 to R171). -/
def parseOk (p : CodecParams) (s : Chars) : SigWord :=
  let dg := splitDayGender (dayGenderValue p.numericFallback s)
  assemble (emask s) (parseName s) (BitVec.ofNat 7 (parseYear p.numericFallback s)) (l2m s[8])
    (storedDay p.dayOverflow dg.1) dg.2 (l2i s[11]) (BitVec.ofNat 10 (parseMnum p.numericFallback s)) (l2i s[15])

/-- `parse(n, s)` for a string of declared length `n` (43_codec.md R160). -/
def parse (p : CodecParams) (n : Nat) (s : Chars) : Except CodecError RecWord :=
  if valid16 n s then .ok ((parseOk p s).setWidth 80) else .error .invalidFormat

/-! ### format -/

/-- `sub(d, b)`: the digit character, or its substitution letter when the mask bit is 1 (43_codec.md R174). -/
def substituted (d : Fin 10) (b : Bool) : Byte := if b then substitutionLetter d else chr d

/-- The two-digit value `v` that format renders: the day, plus 40 for a female (43_codec.md R175). -/
def renderedDayValue (r : RecWord) : Nat :=
  if genField r = 1#1 then (dayField r).toNat else (dayField r).toNat + Config.femaleOffset

/-- The letter of a 5-bit letter index (41_alphabet_tables.md R121). -/
def letterOf (n : BitVec 5) : Byte := i2l n.toNat

/-- `format(r)`: sixteen characters (43_codec.md R175). The rule defines it for a well-formed record; FORMAT refuses
every other record before it gets here (R178). -/
def format (r : RecWord) : Chars :=
  let k := omaskField r
  let y := (yearField r).toNat
  let n := (mnumField r).toNat
  let v := renderedDayValue r
  #v[letterOf (nameGroup r 0), letterOf (nameGroup r 1), letterOf (nameGroup r 2),
     letterOf (nameGroup r 3), letterOf (nameGroup r 4), letterOf (nameGroup r 5),
     substituted (dig y 1) (k.getLsbD 6), substituted (dig y 0) (k.getLsbD 5),
     m2l (monField r).toNat,
     substituted (dig v 1) (k.getLsbD 4), substituted (dig v 0) (k.getLsbD 3),
     letterOf (mletField r),
     substituted (dig n 2) (k.getLsbD 2), substituted (dig n 1) (k.getLsbD 1), substituted (dig n 0) (k.getLsbD 0),
     letterOf (chkField r)]

/-! ### Records -/

/-- `WF(r)`: the year is at most 99 and the municipality number at most 999 (43_codec.md R176). -/
def wellFormedRecord (r : RecWord) : Bool := (yearField r).toNat ≤ 99 && (mnumField r).toNat ≤ 999

/-- All eight letter indices, six name groups, `MLET` and `CHK`, are at most 25 (43_codec.md R181). -/
def lettersInRange (r : RecWord) : Bool :=
  (nameGroup r 0).toNat ≤ 25 && (nameGroup r 1).toNat ≤ 25 && (nameGroup r 2).toNat ≤ 25 &&
  (nameGroup r 3).toNat ≤ 25 && (nameGroup r 4).toNat ≤ 25 && (nameGroup r 5).toNat ≤ 25 &&
  (mletField r).toNat ≤ 25 && (chkField r).toNat ≤ 25

/-- `CANON(r)` (43_codec.md R181; 90_conflicts.md C9): well formed, letters in range, month 1 to 12, padding 0. -/
def canonical (r : RecWord) : Bool :=
  wellFormedRecord r && lettersInRange r && 1 ≤ (monField r).toNat && (monField r).toNat ≤ 12 && padField r == 0#6

/-! ### Accessors -/

/-- The name/surname block as a 6-letter string, the leftmost letter in the lowest byte (44_accessors.md R201). -/
def nameString (r : RecWord) : ResWord :=
  letterOf (nameGroup r 5) ++ letterOf (nameGroup r 4) ++ letterOf (nameGroup r 3)
    ++ letterOf (nameGroup r 2) ++ letterOf (nameGroup r 1) ++ letterOf (nameGroup r 0)

/-- The municipality as a letter and three plain digits, the letter in the lowest byte (44_accessors.md R206). -/
def municipalityString (r : RecWord) : ResWord :=
  let n := (mnumField r).toNat
  (chr (dig n 0) ++ chr (dig n 1) ++ chr (dig n 2) ++ letterOf (mletField r)).setWidth 48

end Sys2Proof.Machine
end

