-- ==== Sys2Proof/Machine/Ops.lean ====
section
/-!
DEFINITION. The named operations over the string buffer, the registers and the ports; raising a status; accepting what
the host presents (spec/00_scope.md R8; spec/20_memory.md; spec/60_exceptions.md R222, R226).
-/

namespace Sys2Proof.Machine

/-! ### The string buffer (10_state.md R26; 20_memory.md R50, R55) -/

/-- The character in a cell; a cell the list does not name holds its reset contents (log 7). The index type is the
address space: no other cell exists (20_memory.md R50). -/
def Memory.cell (m : Memory) (i : Fin 16) : Byte := (m.lookup i.val).getD Config.unlistedByte

/-- The cells from index `a` up that hold `cs`, less those that hold what an unlisted cell reads as. -/
def cellsFrom (a : Nat) : List Byte → Memory
  | []      => []
  | c :: cs => if c = Config.unlistedByte then cellsFrom (a + 1) cs else (a, c) :: cellsFrom (a + 1) cs

/-- All sixteen cells read together (20_memory.md R55). -/
def Memory.load (m : Memory) : Chars := Vector.ofFn fun i => m.cell i

/-- All sixteen cells written together: the buffer is writable as a whole (20_memory.md R50, R55). -/
def Memory.store (s : Chars) : Memory := cellsFrom 0 s.toList

/-- `MemRead(a, n)`, defined only for a + n <= 16 (00_scope.md R8). -/
def Memory.memRead (m : Memory) (a n : Nat) (h : a + n ≤ 16) : Vector Byte n :=
  Vector.ofFn fun k => m.cell ⟨a + k.val, Nat.lt_of_lt_of_le (Nat.add_lt_add_left k.isLt a) h⟩

/-- `MemWrite(a, n, v)`, defined only for a + n <= 16 (00_scope.md R8): the other cells keep their character. -/
def Memory.memWrite (m : Memory) (a n : Nat) (v : Vector Byte n) (_ : a + n ≤ 16) : Memory :=
  Memory.store (Vector.ofFn fun i =>
    if h : a ≤ i.val ∧ i.val - a < n then v[i.val - a]'h.2 else m.cell i)

/-- The canonical form, from index `a` up: indices rise strictly and stay below 16, and no cell is listed with the
character an unlisted one reads as. -/
def cellsWf (a : Nat) : Memory → Bool
  | []          => true
  | (i, c) :: m => decide (a ≤ i) && decide (i < 16) && decide (c ≠ Config.unlistedByte) && cellsWf (i + 1) m

/-- The canonical form of the string buffer, in which equal buffers are equal lists (log 7). -/
def Memory.wf (m : Memory) : Bool := cellsWf 0 m

/-! ### Registers -/

/-- `REC` as it reads: the padding bits 79:74 are hardwired to 0 (10_state.md R21). -/
def State.readREC (s : State) : RecWord := s.recBits.setWidth 80

/-- `REC <- v`: the whole register (10_state.md R33); bits 79:74 of `v` are not stored (R21). -/
def State.writeREC (s : State) (v : RecWord) : State := { s with recBits := v.setWidth 74 }

/-- The sixteen characters of `SB`. -/
def State.readSB (s : State) : Chars := s.sb.load

/-- `for i in [0 .. 15]: SB[i] <- c[i]` (40_transfer.md R111; 43_codec.md R178). -/
def State.writeSB (s : State) (c : Chars) : State := { s with sb := Memory.store c }

/-- `SLEN <- n` (10_state.md R27). -/
def State.writeSLEN (s : State) (n : Byte) : State := { s with slen := n }

/-- `RES <- v` (10_state.md R28). -/
def State.writeRES (s : State) (v : ResWord) : State := { s with res := v }

/-! ### Ending a command -/

/-- `raise S`: `ST <- code(S)`, no other register changes, and the command ends (00_scope.md R8; 60_exceptions.md R226).
This is all there is of taking an exception: nothing is saved, no mode changes, no control transfers, and there is no
return (R226, R227). -/
def State.raise (s : State) (x : Status) : State := s.writeST x

/-- `RES <- v; ST <- OK`: how every command that yields a result ends (10_state.md R28). -/
def State.yieldResult (s : State) (v : ResWord) : State := (s.writeRES v).writeST .ok

/-- The common form of the seven accessors (44_accessors.md R200): `BAD_OPERAND` when there is no record, otherwise the
projection of `REC`. -/
def State.project (s : State) (f : RecWord → ResWord) : State :=
  if s.rv then s.yieldResult (f s.readREC) else s.raise .badOperand

/-- An illegal command word: `ST <- ILLEGAL_COMMAND`, every other register unchanged, no payload port sampled
(60_exceptions.md R222). -/
def State.illegalCommand (s : State) : State := s.raise .illegalCommand

/-! ### The host's side -/

/-- The ports hold what the host presents, and `rest` is what it does after (10_state.md R24, R31; log 1). -/
def State.accept (s : State) (p : Ports) (rest : List HostEvent) : State := { s with ports := p, inbox := rest }

/-- The reset event: every register takes its reset value (70_reset_and_hazards.md R250; 10_state.md R37). The ports and
what the host does next are the host's own and stay (log 2). -/
def State.takeReset (s : State) (rest : List HostEvent) : State :=
  { State.reset with ports := s.ports, inbox := rest }

/-- The host presents the command word `w` next, with the payload ports as they are (log 1). -/
def State.presentWord (s : State) (w : CmdWord) : State :=
  { s with inbox := .command { s.ports with cw := w } :: s.inbox }

/-! ### Output ports (10_state.md R30) -/

/-- The six output ports. -/
structure OutputPorts where
  dout : RecWord
  rvo  : BitVec 1
  sout : StrWord
  lout : Byte
  reso : ResWord
  sto  : BitVec 2
  deriving DecidableEq, Repr

/-- What the output ports show: each continuously shows one register (10_state.md R30). -/
def State.outputs (s : State) : OutputPorts :=
  { dout := s.readREC, rvo := rvBit s.rv, sout := wordOfChars s.readSB, lout := s.slen, reso := s.res, sto := s.st.code }

end Sys2Proof.Machine
end

