-- ==== Sys2Proof/Machine/Accessors.lean ====
section
/-!
DEFINITION. The seven accessor commands (spec/44_accessors.md R200 to R207). The raw field is returned; none validates it
(R200).
-/

namespace Sys2Proof.Machine

/-- GNAME: the six letters of the name/surname block (44_accessors.md R201). -/
def execGname (s : State) : Host.Outcome State Fault Refusal := .next (s.project nameString)

/-- GYEAR: the 7-bit year (44_accessors.md R202). -/
def execGyear (s : State) : Host.Outcome State Fault Refusal := .next (s.project fun r => (yearField r).setWidth 48)

/-- GMONTH: the month number (44_accessors.md R203). -/
def execGmonth (s : State) : Host.Outcome State Fault Refusal := .next (s.project fun r => (monField r).setWidth 48)

/-- GDAY: the day, without the offset (44_accessors.md R204). -/
def execGday (s : State) : Host.Outcome State Fault Refusal := .next (s.project fun r => (dayField r).setWidth 48)

/-- GGEN: the gender marker bit, 1 = male (44_accessors.md R205). -/
def execGgen (s : State) : Host.Outcome State Fault Refusal := .next (s.project fun r => (genField r).setWidth 48)

/-- GMUNI: letter and three digits; `BAD_OPERAND` when there is no record or its number is above 999
(44_accessors.md R206). It does not look at `YEAR`. -/
def execGmuni (s : State) : Host.Outcome State Fault Refusal :=
  if s.rv && decide ((mnumField s.readREC).toNat > 999) then .next (s.raise .badOperand)
  else .next (s.project municipalityString)

/-- GCHK: the check letter as stored (44_accessors.md R207). -/
def execGchk (s : State) : Host.Outcome State Fault Refusal :=
  .next (s.project fun r => (letterOf (chkField r)).setWidth 48)

end Sys2Proof.Machine
end

