-- ==== Sys2Proof/Machine/Alphabet.lean ====
section
/-!
DEFINITION. The commands over the alphabet tables: L2I, I2L, L2M, M2L (spec/41_alphabet_tables.md R126 to R129). Each is
total on all 256 immediates and touches `RES` and `ST` only.
-/

namespace Sys2Proof.Machine

/-- L2I: `RES <- zext_48(l2i(imm8)); ST <- OK` (41_alphabet_tables.md R126). -/
def execL2i (c : Byte) (s : State) : Host.Outcome State Fault Refusal := .next (s.yieldResult ((l2i c).setWidth 48))

/-- I2L: `RES <- zext_48(i2l(imm8)); ST <- OK` (41_alphabet_tables.md R127). -/
def execI2l (n : Byte) (s : State) : Host.Outcome State Fault Refusal :=
  .next (s.yieldResult ((i2l n.toNat).setWidth 48))

/-- L2M: `RES <- zext_48(l2m(imm8)); ST <- OK` (41_alphabet_tables.md R128). -/
def execL2m (c : Byte) (s : State) : Host.Outcome State Fault Refusal := .next (s.yieldResult ((l2m c).setWidth 48))

/-- M2L: `RES <- zext_48(m2l(imm8)); ST <- OK` (41_alphabet_tables.md R129). -/
def execM2l (n : Byte) (s : State) : Host.Outcome State Fault Refusal :=
  .next (s.yieldResult ((m2l n.toNat).setWidth 48))

end Sys2Proof.Machine
end

