-- ==== Sys2Proof/Machine/Codec.lean ====
section
/-!
DEFINITION. The codec commands PARSE and FORMAT (spec/43_codec.md R173, R178).
-/

namespace Sys2Proof.Machine

/-- PARSE: the record of the string buffer, or an emptied record register with `INVALID_FORMAT` (43_codec.md R173). The
failure is the one error that changes state other than `ST` (60_exceptions.md R226). -/
def execParse (s : State) : Host.Outcome State Fault Refusal :=
  match parse Config.params s.slen.toNat s.readSB with
  | .ok r               => .next (((s.writeREC r).writeRV true).writeST .ok)
  | .error .invalidFormat => .next (((s.writeREC 0).writeRV false).writeST .invalidFormat)

/-- FORMAT: `BAD_OPERAND` when there is no record or it is not well formed, else `SB <- format(REC)`, `SLEN <- 16`
(43_codec.md R178). -/
def execFormat (s : State) : Host.Outcome State Fault Refusal :=
  if s.rv = false then .next (s.raise .badOperand)
  else if wellFormedRecord s.readREC = false then .next (s.raise .badOperand)
  else .next (((s.writeSB (format s.readREC)).writeSLEN 16#8).writeST .ok)

end Sys2Proof.Machine
end

