-- ==== Sys2Proof/Machine/Omocodia.lean ====
section
/-!
DEFINITION. The commands of the omocodia substitution: D2L, L2D, EMASK (spec/42_omocodia.md R146 to R148).
-/

namespace Sys2Proof.Machine

/-- D2L: `BAD_OPERAND` unless `imm8` is a digit character, else `RES <- zext_48(d2l(imm8))` (42_omocodia.md R146). -/
def execD2l (c : Byte) (s : State) : Host.Outcome State Fault Refusal :=
  match d2l c with
  | some letter => .next (s.yieldResult (letter.setWidth 48))
  | none        => .next (s.raise .badOperand)

/-- L2D: `RES <- zext_48(l2d(imm8)); ST <- OK` (42_omocodia.md R147). -/
def execL2d (c : Byte) (s : State) : Host.Outcome State Fault Refusal := .next (s.yieldResult ((l2d c).setWidth 48))

/-- EMASK: `BAD_OPERAND` unless `SLEN` = 16, else `RES <- zext_48(emask(SB))`; the characters are not validated
(42_omocodia.md R148). -/
def execEmask (s : State) : Host.Outcome State Fault Refusal :=
  if s.slen = 16#8 then .next (s.yieldResult ((emask s.readSB).setWidth 48)) else .next (s.raise .badOperand)

end Sys2Proof.Machine
end

