-- ==== Sys2Proof/Machine/Transfer.lean ====
section
/-!
DEFINITION. The transfer commands NOP, LDSTR and LDRAW (spec/40_transfer.md R110 to R112).
-/

namespace Sys2Proof.Machine

/-- NOP: nothing, not even `ST` (40_transfer.md R110). -/
def execNop (s : State) : Host.Outcome State Fault Refusal := .next s

/-- LDSTR: all sixteen lanes of `SIN` and the length on `LIN`, whatever they are (40_transfer.md R111). -/
def execLdstr (s : State) : Host.Outcome State Fault Refusal :=
  .next (((s.writeSB (charsOfWord s.ports.sin)).writeSLEN s.ports.lin).writeST .ok)

/-- LDRAW: `REC <- zext_80(DIN[73:0]); RV <- 1; ST <- OK` (40_transfer.md R112). -/
def execLdraw (s : State) : Host.Outcome State Fault Refusal :=
  .next (((s.writeREC s.ports.din).writeRV true).writeST .ok)

end Sys2Proof.Machine
end

