-- ==== Sys2Proof/Machine/Dispatch.lean ====
section
/-! DEFINITION. One arm per command (spec/30_encoding.md R83): each calls its meaning. -/

namespace Sys2Proof.Machine

def exec (i : Instr) (s : State) : Host.Outcome State Fault Refusal :=
  match i with
  -- 40_transfer.md
  | .nop => Sys2Proof.Machine.execNop s
  | .ldstr => Sys2Proof.Machine.execLdstr s
  | .ldraw => Sys2Proof.Machine.execLdraw s
  -- 41_alphabet_tables.md
  | .l2i c => Sys2Proof.Machine.execL2i c s
  | .i2l n => Sys2Proof.Machine.execI2l n s
  | .l2m c => Sys2Proof.Machine.execL2m c s
  | .m2l n => Sys2Proof.Machine.execM2l n s
  -- 42_omocodia.md
  | .d2l c => Sys2Proof.Machine.execD2l c s
  | .l2d c => Sys2Proof.Machine.execL2d c s
  | .emask => Sys2Proof.Machine.execEmask s
  -- 43_codec.md
  | .parse => Sys2Proof.Machine.execParse s
  | .format => Sys2Proof.Machine.execFormat s
  -- 44_accessors.md
  | .gname => Sys2Proof.Machine.execGname s
  | .gyear => Sys2Proof.Machine.execGyear s
  | .gmonth => Sys2Proof.Machine.execGmonth s
  | .gday => Sys2Proof.Machine.execGday s
  | .ggen => Sys2Proof.Machine.execGgen s
  | .gmuni => Sys2Proof.Machine.execGmuni s
  | .gchk => Sys2Proof.Machine.execGchk s

end Sys2Proof.Machine
end

