-- ==== Sys2Proof/Machine/Step.lean ====
section
/-!
DEFINITION. One step of the machine: take what the host presents next, apply its rule (spec/10_state.md R24).
-/

namespace Sys2Proof.Machine

/-- One step. There is no program counter and no fetch: the host sequences the commands (10_state.md R24). With nothing
presented the block holds its state (60_exceptions.md R235). An illegal word completes with its status (60_exceptions.md
R222). The two host actions for which the spec defines no outcome stop the machine by name (log 8, log 9). -/
def step (s : State) : Host.Outcome State Fault Refusal :=
  match s.inbox with
  | []                         => .next s
  | .command p :: rest         =>
    match decode p.cw with
    | .ok i    => exec i (s.accept p rest)
    | .error _ => .next (s.accept p rest).illegalCommand
  | .reset :: rest             => .next (s.takeReset rest)
  | .portConflict :: _         => .fault .portConflict
  | .resetDuringCommand :: _   => .fault .resetDuringCommand

/-- `s` with the command whose `nbits` bits are `w` presented next: the very next step accepts and runs it (log 1). -/
def State.withFetchWord (s : State) (nbits w : Nat) : State := s.presentWord (tableWord nbits w)

end Sys2Proof.Machine
end

