-- ==== Sys2Proof/Machine/Assembler.lean ====
section
/-!
DEFINITION. The assembler of the spec's listings (spec/30_encoding.md R88) and its two pseudo-instructions (R89): what a
line makes the host present on the input ports. It is the host's tool; no step of the machine uses it.
-/

namespace Sys2Proof.Machine

/-- A line of assembly (30_encoding.md R88, R89). -/
inductive AsmLine where
  /-- A command of format Z, C or N. -/
  | plain (i : Instr)
  /-- `LDSTR "s"`, or `LDSTR "s", n` with an explicit length. -/
  | ldstr (s : List Byte) (len : Option Byte)
  /-- `LDRAW v`. -/
  | ldraw (v : RecWord)
  /-- `PARSESTR "s"` (R89). -/
  | parsestr (s : List Byte)
  /-- `FMTRAW v` (R89). -/
  | fmtraw (v : RecWord)
  deriving DecidableEq, Repr

/-- The ports with a command word and no payload. The payload ports of a command that does not name them are 0
(DESIGN CHOICE, log 13): the command ignores them (10_state.md R31). -/
def portsOfWord (w : CmdWord) : Ports := { Ports.idle with cw := w }

/-- `SIN` lane i is the code of character i for i < min(L, 16), 0x00 for the other lanes (30_encoding.md R88). -/
def sinOfString (s : List Byte) : StrWord := wordOfChars (Vector.ofFn fun i => s.getD i.val 0x00#8)

/-- `LIN` = min(L, 255) (30_encoding.md R88; 10_state.md R31). -/
def linOfString (s : List Byte) : Byte := BitVec.ofNat 8 (min s.length 255)

/-- `LDSTR` with a string and a length (30_encoding.md R88). -/
def ldstrPorts (s : List Byte) (len : Byte) : Ports := { portsOfWord (encode .ldstr) with sin := sinOfString s, lin := len }

/-- `LDRAW` with a raw record (30_encoding.md R88). -/
def ldrawPorts (v : RecWord) : Ports := { portsOfWord (encode .ldraw) with din := v }

/-- The commands that a line assembles to: one, or two for a pseudo-instruction (30_encoding.md R88, R89). -/
def AsmLine.assemble : AsmLine → List Ports
  | .plain i           => [portsOfWord (encode i)]
  | .ldstr s none      => [ldstrPorts s (linOfString s)]
  | .ldstr s (some n)  => [ldstrPorts s n]
  | .ldraw v           => [ldrawPorts v]
  | .parsestr s        => [ldstrPorts s (linOfString s), portsOfWord (encode .parse)]
  | .fmtraw v          => [ldrawPorts v, portsOfWord (encode .format)]

/-- What the host does to issue the lines of a program, in order (10_state.md R24). -/
def assembleProgram (ls : List AsmLine) : List HostEvent := (ls.flatMap AsmLine.assemble).map HostEvent.command

/-- The host issues the lines of a program next, before anything it was going to do. -/
def State.withProgram (s : State) (ls : List AsmLine) : State := { s with inbox := assembleProgram ls ++ s.inbox }

/-! ### The text of a line (30_encoding.md R88) -/

/-- The code of an ASCII character (00_scope.md R9); a literal holds no other character (log 13). -/
def asciiCode (c : Char) : Option Byte := if c.toNat < 128 then some (BitVec.ofNat 8 c.toNat) else none

/-- The value of a decimal digit. -/
def decimalDigit (c : Char) : Option Nat :=
  if 0x30 ≤ c.toNat ∧ c.toNat ≤ 0x39 then some (c.toNat - 0x30) else none

/-- The value of a hexadecimal digit, in either case. -/
def hexDigit (c : Char) : Option Nat :=
  if 0x30 ≤ c.toNat ∧ c.toNat ≤ 0x39 then some (c.toNat - 0x30)
  else if 0x41 ≤ c.toNat ∧ c.toNat ≤ 0x46 then some (c.toNat - 0x37)
  else if 0x61 ≤ c.toNat ∧ c.toNat ≤ 0x66 then some (c.toNat - 0x57)
  else none

/-- Space or tab. -/
def isBlank (c : Char) : Bool := c = ' ' || c = '\t'

/-- The digits at the head of a text as a number after `acc`, and the rest. -/
def readDigits (digit : Char → Option Nat) (base acc : Nat) : List Char → Nat × List Char
  | []      => (acc, [])
  | c :: cs =>
    match digit c with
    | some d => readDigits digit base (acc * base + d) cs
    | none   => (acc, c :: cs)

/-- A number at the head of a text, decimal or hexadecimal with `0x` (30_encoding.md R88). -/
def readNumber : List Char → Option (Nat × List Char)
  | '0' :: 'x' :: c :: cs => (hexDigit c).map fun d => readDigits hexDigit 16 d cs
  | c :: cs               => (decimalDigit c).map fun d => readDigits decimalDigit 10 d cs
  | []                    => none

/-- The rest of a string literal after its opening quote, `\xHH` standing for one character (30_encoding.md R88). R88
gives no meaning for a backslash that does not begin `\xHH`, nor a way to write a quote inside a literal but `\x22`: such a
backslash makes the text no line, and the first quote ends the literal (DESIGN CHOICE, log 13). -/
def readString : List Char → Option (List Byte × List Char)
  | []                          => none
  | '"' :: cs                   => some ([], cs)
  | '\\' :: 'x' :: h :: l :: cs =>
    match hexDigit h, hexDigit l, readString cs with
    | some a, some b, some (s, rest) => some (BitVec.ofNat 8 (16 * a + b) :: s, rest)
    | _, _, _                        => none
  | '\\' :: _                   => none
  | c :: cs                     =>
    match asciiCode c, readString cs with
    | some b, some (s, rest) => some (b :: s, rest)
    | _, _                   => none

/-- An operand as it is written. -/
inductive AsmOperand where
  | absent
  | char (code : Byte)
  | number (n : Nat)
  | string (s : List Byte) (len : Option Nat)
  deriving DecidableEq, Repr

/-- Nothing but blanks and a comment is left on the line (30_encoding.md R88: a `;` starts a comment). -/
def endOfLine (cs : List Char) : Bool :=
  match cs.dropWhile isBlank with
  | []     => true
  | c :: _ => c = ';'

/-- The operand of a line, with nothing after it. -/
def readOperand (cs : List Char) : Option AsmOperand :=
  if endOfLine cs then some .absent
  else
    match cs.dropWhile isBlank with
    | '\'' :: c :: '\'' :: rest => if endOfLine rest then (asciiCode c).map .char else none
    | '"' :: rest =>
      match readString rest with
      | none          => none
      | some (s, out) =>
        if endOfLine out then some (.string s none)
        else
          match out.dropWhile isBlank with
          | ',' :: more =>
            match readNumber (more.dropWhile isBlank) with
            | some (n, tail) => if endOfLine tail then some (.string s (some n)) else none
            | none           => none
          | _           => none
    | other =>
      match readNumber other with
      | some (n, tail) => if endOfLine tail then some (.number n) else none
      | none           => none

/-- A number that fits eight bits. -/
def byteOfNat (n : Nat) : Option Byte := if n ≤ 255 then some (BitVec.ofNat 8 n) else none

/-- A character operand: a character literal, or a number 0-255 (30_encoding.md R88). -/
def charOperand : AsmOperand → Option Byte
  | .char b   => some b
  | .number n => byteOfNat n
  | _         => none

/-- A number operand, 0-255 (30_encoding.md R88). -/
def numberOperand : AsmOperand → Option Byte
  | .number n => byteOfNat n
  | _         => none

/-- An 80-bit number (30_encoding.md R88). -/
def recordOperand : AsmOperand → Option RecWord
  | .number n => if n < 2 ^ 80 then some (BitVec.ofNat 80 n) else none
  | _         => none

/-- A command with no operand. -/
def noOperand (i : Instr) : AsmOperand → Option AsmLine
  | .absent => some (.plain i)
  | _       => none

/-- `LDSTR "s"` and `LDSTR "s", n` with n 0-255 (30_encoding.md R88). -/
def ldstrLine : AsmOperand → Option AsmLine
  | .string s none     => some (.ldstr s none)
  | .string s (some n) => (byteOfNat n).map fun b => .ldstr s (some b)
  | _                  => none

/-- `PARSESTR "s"` (30_encoding.md R89). -/
def parsestrLine : AsmOperand → Option AsmLine
  | .string s none => some (.parsestr s)
  | _              => none

/-- The line of a mnemonic and its operand (30_encoding.md R88, R89). -/
def lineOf (mnemonic : List Char) (o : AsmOperand) : Option AsmLine :=
  match mnemonic with
  | ['N', 'O', 'P']                          => noOperand .nop o
  | ['L', 'D', 'S', 'T', 'R']                => ldstrLine o
  | ['L', 'D', 'R', 'A', 'W']                => (recordOperand o).map .ldraw
  | ['L', '2', 'I']                          => (charOperand o).map fun b => .plain (.l2i b)
  | ['I', '2', 'L']                          => (numberOperand o).map fun b => .plain (.i2l b)
  | ['L', '2', 'M']                          => (charOperand o).map fun b => .plain (.l2m b)
  | ['M', '2', 'L']                          => (numberOperand o).map fun b => .plain (.m2l b)
  | ['D', '2', 'L']                          => (charOperand o).map fun b => .plain (.d2l b)
  | ['L', '2', 'D']                          => (charOperand o).map fun b => .plain (.l2d b)
  | ['E', 'M', 'A', 'S', 'K']                => noOperand .emask o
  | ['P', 'A', 'R', 'S', 'E']                => noOperand .parse o
  | ['F', 'O', 'R', 'M', 'A', 'T']           => noOperand .format o
  | ['G', 'N', 'A', 'M', 'E']                => noOperand .gname o
  | ['G', 'Y', 'E', 'A', 'R']                => noOperand .gyear o
  | ['G', 'M', 'O', 'N', 'T', 'H']           => noOperand .gmonth o
  | ['G', 'D', 'A', 'Y']                     => noOperand .gday o
  | ['G', 'G', 'E', 'N']                     => noOperand .ggen o
  | ['G', 'M', 'U', 'N', 'I']                => noOperand .gmuni o
  | ['G', 'C', 'H', 'K']                     => noOperand .gchk o
  | ['P', 'A', 'R', 'S', 'E', 'S', 'T', 'R'] => parsestrLine o
  | ['F', 'M', 'T', 'R', 'A', 'W']           => (recordOperand o).map .fmtraw
  | _                                        => none

/-- Upper-case letters and digits, what a mnemonic is made of (30_encoding.md R83). -/
def isMnemonicChar (c : Char) : Bool :=
  (decide (0x41 ≤ c.toNat) && decide (c.toNat ≤ 0x5A)) || (decimalDigit c).isSome

/-- The text of one line: no command (blank, or a comment alone), one line, or `none` where the text is no line of the
syntax (30_encoding.md R88). A mnemonic and its operand are set apart by a blank (log 13). -/
def readLine (text : List Char) : Option (List AsmLine) :=
  let cs := text.dropWhile isBlank
  if endOfLine cs then some []
  else
    let rest := cs.dropWhile isMnemonicChar
    if endOfLine rest || rest.head?.any isBlank then
      (readOperand rest).bind fun o => (lineOf (cs.takeWhile isMnemonicChar) o).map fun l => [l]
    else none

/-- The lines of a program text. -/
def readProgram : List (List Char) → Option (List AsmLine)
  | []      => some []
  | l :: ls =>
    match readLine l, readProgram ls with
    | some a, some b => some (a ++ b)
    | _, _           => none

end Sys2Proof.Machine
end

