-- ==== Sys2Proof/Safety.lean ====
section
/-!
DEFINITION. The terms that claims use: what a command keeps, the table of reads and writes (spec/10_state.md R36), the
causes of `BAD_OPERAND` (spec/60_exceptions.md R223), a well-behaved host, and the invariant of the machine.
-/

namespace Sys2Proof.Machine

/-! ### What is kept -/

/-- `REC` and `RV` are as before. -/
def SameRecord (s t : State) : Prop := t.readREC = s.readREC ∧ t.rv = s.rv

/-- Every character of `SB`, and `SLEN`, are as before. -/
def SameString (s t : State) : Prop := (∀ a : Fin 16, t.sb.cell a = s.sb.cell a) ∧ t.slen = s.slen

/-- The model's own fields are as before: the presented ports and what the host does next. -/
def SameHost (s t : State) : Prop := t.ports = s.ports ∧ t.inbox = s.inbox

/-- Nothing but `ST` may have changed, and `ST` is `x`: what `raise` leaves (60_exceptions.md R226). -/
def OnlyStatus (x : Status) (s t : State) : Prop :=
  t.st = x ∧ t.res = s.res ∧ SameRecord s t ∧ SameString s t ∧ SameHost s t

/-- Nothing but `RES` and `ST` may have changed, and `ST` is `OK`. -/
def OnlyResult (s t : State) : Prop := t.st = .ok ∧ SameRecord s t ∧ SameString s t ∧ SameHost s t

/-- `SB` and `SLEN` hold a string that the precondition of `parse` accepts (43_codec.md R160). -/
def HoldsValidString (s : State) : Prop := s.slen = 16#8 ∧ ∀ a : Fin 16, isalnum (s.sb.cell a) = true

/-! ### Reads and writes (10_state.md R36) -/

/-- The six registers (10_state.md R20). -/
inductive Register where
  | REC | RV | SB | SLEN | RES | ST
  deriving DecidableEq, Repr

/-- Two states hold the same value in a register; of `SB`, in every cell. -/
def AgreeOn (s t : State) : Register → Prop
  | .REC  => s.readREC = t.readREC
  | .RV   => s.rv = t.rv
  | .SB   => ∀ a : Fin 16, s.sb.cell a = t.sb.cell a
  | .SLEN => s.slen = t.slen
  | .RES  => s.res = t.res
  | .ST   => s.st = t.st

/-- The registers a command may write: the column entries W of 10_state.md R36. -/
def writes : Instr → List Register
  | .nop    => []
  | .ldstr  => [.SB, .SLEN, .ST]
  | .ldraw  => [.REC, .RV, .ST]
  | .parse  => [.REC, .RV, .ST]
  | .format => [.SB, .SLEN, .ST]
  | .l2i _ | .i2l _ | .l2m _ | .m2l _ | .d2l _ | .l2d _ | .emask
  | .gname | .gyear | .gmonth | .gday | .ggen | .gmuni | .gchk => [.RES, .ST]

/-- The registers a command may read: the column entries R of 10_state.md R36. -/
def reads : Instr → List Register
  | .nop | .ldstr | .ldraw => []
  | .l2i _ | .i2l _ | .l2m _ | .m2l _ | .d2l _ | .l2d _ => []
  | .emask | .parse => [.SB, .SLEN]
  | .format | .gname | .gyear | .gmonth | .gday | .ggen | .gmuni | .gchk => [.REC, .RV]

/-- Two port values agree on the payload ports that a command samples (10_state.md R31, R36). -/
def AgreeOnPayload (p q : Ports) : Instr → Prop
  | .ldstr => p.sin = q.sin ∧ p.lin = q.lin
  | .ldraw => p.din = q.din
  | _      => True

/-! ### Refused commands (60_exceptions.md R223) -/

/-- The complete list of causes of `BAD_OPERAND` (60_exceptions.md R223). -/
def BadOperandCause (s : State) : Instr → Prop
  | .format  => s.rv = false ∨ (yearField s.readREC).toNat > 99 ∨ (mnumField s.readREC).toNat > 999
  | .gmuni   => s.rv = false ∨ (mnumField s.readREC).toNat > 999
  | .gname | .gyear | .gmonth | .gday | .ggen | .gchk => s.rv = false
  | .emask   => s.slen ≠ 16#8
  | .d2l c   => ¬(0x30 ≤ c.toNat ∧ c.toNat ≤ 0x39)
  | .nop | .ldstr | .ldraw | .l2i _ | .i2l _ | .l2m _ | .m2l _ | .l2d _ | .parse => False

/-! ### Runs -/

/-- The host does nothing for which the spec defines no outcome (70_reset_and_hazards.md R256: the host's duties). -/
def HostWellBehaved (s : State) : Prop := ∀ e ∈ s.inbox, e ≠ .portConflict ∧ e ≠ .resetDuringCommand

/-- A safe step ends in a next state. -/
def Completes (o : Host.Outcome State Fault Refusal) : Prop := ∃ t, o = .next t

/-- The invariant of the machine: the string buffer is in its canonical form (log 7), and a record register that holds
no record is all zeros (10_state.md R25). -/
def Inv (s : State) : Prop := s.sb.wf = true ∧ (s.rv = false → s.readREC = 0)

end Sys2Proof.Machine
end

