-- ==== Sys2Proof/Certificates/Slice0/Obligations.lean ====
section
/-!
DEFINITION. The statements for the provers. Each docstring names the rule of spec/ that the statement formalises, or the
log entry it rests on. They are grouped as the spec is: encoding, machine, transfer, tables, omocodia, codec, accessors.
-/

open Sys2Proof Sys2Proof.Machine

/-! ### Encoding (30_encoding.md) -/

/-- Decoding an encoded well-formed command gives it back, with every operand at every value (R80, R83, R90). -/
def Obligations.DecodeOfEncodeIsIdentity : Prop :=
  ∀ i : Instr, i.wellFormed = true → decode (encode i) = .ok i

/-- Each legal word has one meaning and the encoder gives that word back, so no bit of a word is dropped (R90). -/
def Obligations.EncodeOfDecodeIsIdentity : Prop :=
  ∀ (w : CmdWord) (i : Instr), decode w = .ok i → encode i = w

/-- A word decodes exactly when it selects a row of the opcode map; it selects at most one; and the command it decodes
to is the one of that row (R83). -/
def Obligations.DecodeSelectsTheOpcodeRow : Prop :=
  ∀ w : CmdWord,
    ((∃ i, decode w = .ok i) ↔ ∃ row ∈ opTable, w &&& row.mask = row.pattern) ∧
    (∀ a ∈ opTable, ∀ b ∈ opTable, w &&& a.mask = a.pattern → w &&& b.mask = b.pattern → a = b) ∧
    (∀ i, decode w = .ok i → i.row ∈ opTable ∧ w &&& i.row.mask = i.row.pattern)

/-- Which words are illegal, by opcode range and by reserved byte, that each is refused with `ILLEGAL_COMMAND`, and how
many words are legal (R84). -/
def Obligations.IllegalWordsAreExactlyTheseAndRefused : Prop :=
  (∀ w : CmdWord, (∃ e, decode w = .error e) ↔
    (let op := w.toNat / 256
     let imm := w.toNat % 256
     (0x03 ≤ op ∧ op ≤ 0x0F) ∨ (0x14 ≤ op ∧ op ≤ 0x1F) ∨ (0x23 ≤ op ∧ op ≤ 0x2F) ∨ (0x32 ≤ op ∧ op ≤ 0x3F) ∨
     (0x47 ≤ op ∧ op ≤ 0x4F) ∨ (0x50 ≤ op ∧ op ≤ 0xFF) ∨
     (op ∈ [0x00, 0x01, 0x02, 0x22, 0x30, 0x31, 0x40, 0x41, 0x42, 0x43, 0x44, 0x45, 0x46] ∧ imm ≠ 0))) ∧
  (∀ (s : State) (p : Ports) (rest : List HostEvent), s.inbox = .command p :: rest →
    (∃ e, decode p.cw = .error e) → ∃ t, step s = .next t ∧ t.st = .illegalCommand) ∧
  (List.range 65536).countP (fun w => (decode (BitVec.ofNat 16 w)).toOption.isSome) = 1549

/-- Words written out from the encodings and the examples of the spec decode to their commands; three illegal ones do
not (R83, R84, R90). -/
def Obligations.WordsOfTheSpecDecode : Prop :=
  decode 0x0000 = .ok .nop ∧ decode 0x0100 = .ok .ldstr ∧ decode 0x0200 = .ok .ldraw ∧
  decode 0x1052 = .ok (.l2i 0x52) ∧ decode 0x111A = .ok (.i2l 0x1A) ∧ decode 0x1248 = .ok (.l2m 0x48) ∧
  decode 0x130D = .ok (.m2l 0x0D) ∧ decode 0x2033 = .ok (.d2l 0x33) ∧ decode 0x2150 = .ok (.l2d 0x50) ∧
  decode 0x2200 = .ok .emask ∧ decode 0x3000 = .ok .parse ∧ decode 0x3100 = .ok .format ∧
  decode 0x4500 = .ok .gmuni ∧
  decode 0x3001 = .error (.reservedNotZero 0x30 0x01) ∧ decode 0x4700 = .error (.undefinedOpcode 0x47) ∧
  decode 0x0300 = .error (.undefinedOpcode 0x03)

/-! ### The machine (10_state.md, 20_memory.md, 60_exceptions.md, 70_reset_and_hazards.md) -/

/-- A step whose presented word decodes to a well-formed command runs that command, in the state that differs only in
the ports, which hold what the host presents, and in the host's list, which has one event fewer (R24, R31). -/
def Obligations.StepRunsTheDecodedCommand : Prop :=
  ∀ (s : State) (p : Ports) (rest : List HostEvent) (i : Instr),
    s.inbox = .command p :: rest → decode p.cw = .ok i → i.wellFormed = true →
    step s = exec i { s with ports := p, inbox := rest }

/-- A command word presented to any state is run by the very next step, with the payload ports as they are
(the model's choice, log 1). -/
def Obligations.PresentedWordRunsNext : Prop :=
  ∀ (s : State) (i : Instr),
    step (s.withFetchWord 16 (encode i).toNat) = exec i { s with ports := { s.ports with cw := encode i } }

/-- An illegal word sets `ST` to `ILLEGAL_COMMAND` and changes no other register, whatever is on the payload ports
(R222). -/
def Obligations.IllegalWordChangesOnlyStatus : Prop :=
  ∀ (s : State) (p : Ports) (rest : List HostEvent),
    s.inbox = .command p :: rest → (∃ e, decode p.cw = .error e) →
    ∃ t, step s = .next t ∧ t.st = .illegalCommand ∧ t.res = s.res ∧ SameRecord s t ∧ SameString s t ∧
      t.ports = p ∧ t.inbox = rest

/-- Every 16-bit word is handled and every command completes: a presented command ends in a next state with the next
event of the host in turn (R84, R256; status, not a stop: log 3). -/
def Obligations.EveryPresentedWordCompletes : Prop :=
  ∀ (s : State) (p : Ports) (rest : List HostEvent),
    s.inbox = .command p :: rest → ∃ t, step s = .next t ∧ t.ports = p ∧ t.inbox = rest

/-- Reset sets every register to its stated value, from every state and at any time between commands, and these are the
values of `State.reset` (R250). -/
def Obligations.ResetSetsEveryRegister : Prop :=
  (State.reset.readREC = 0 ∧ State.reset.rv = false ∧ (∀ a : Fin 16, State.reset.sb.cell a = 0x00#8) ∧
    State.reset.slen = 0 ∧ State.reset.res = 0 ∧ State.reset.st.code = 0) ∧
  (∀ (s : State) (rest : List HostEvent), s.inbox = .reset :: rest →
    ∃ t, step s = .next t ∧ t.readREC = 0 ∧ t.rv = false ∧ (∀ a : Fin 16, t.sb.cell a = 0x00#8) ∧ t.slen = 0 ∧
      t.res = 0 ∧ t.st.code = 0)

/-- What each command does when it is the first after reset, whatever is on the ports (R251). -/
def Obligations.FirstCommandAfterReset : Prop :=
  ∀ (p : Ports) (rest : List HostEvent),
    let s := State.reset.accept p rest
    exec .nop s = .next s ∧
    (∀ i ∈ [Instr.ldstr, Instr.ldraw], ∃ t, exec i s = .next t ∧ t.st = .ok) ∧
    (∀ c : Byte, ∀ i ∈ [Instr.l2i c, Instr.i2l c, Instr.l2m c, Instr.m2l c, Instr.l2d c],
      ∃ t, exec i s = .next t ∧ OnlyResult s t) ∧
    (∀ c : Byte, 0x30 ≤ c.toNat ∧ c.toNat ≤ 0x39 → ∃ t, exec (.d2l c) s = .next t ∧ OnlyResult s t) ∧
    (∀ c : Byte, ¬(0x30 ≤ c.toNat ∧ c.toNat ≤ 0x39) → ∃ t, exec (.d2l c) s = .next t ∧ OnlyStatus .badOperand s t) ∧
    (∃ t, exec .emask s = .next t ∧ OnlyStatus .badOperand s t) ∧
    (∃ t, exec .parse s = .next t ∧ OnlyStatus .invalidFormat s t ∧ t.readREC = 0 ∧ t.rv = false) ∧
    (∀ i ∈ [Instr.format, Instr.gname, Instr.gyear, Instr.gmonth, Instr.gday, Instr.ggen, Instr.gmuni, Instr.gchk],
      ∃ t, exec i s = .next t ∧ OnlyStatus .badOperand s t)

/-- What a step does when the host presents no command: with nothing presented the block holds its state (R235; that a
step may find nothing is the model's form, log 1), and the two actions of the host for which the spec defines no outcome
stop the machine, each by its own name (the model's choice, log 8 and log 9). -/
def Obligations.StepsWithNoCommandPresented : Prop :=
  ∀ (s : State) (rest : List HostEvent),
    (s.inbox = [] → step s = .next s) ∧
    (s.inbox = .portConflict :: rest → step s = .fault .portConflict) ∧
    (s.inbox = .resetDuringCommand :: rest → step s = .fault .resetDuringCommand)

/-- A host that keeps its duties never meets a stop: a run of any length completes, and the host still keeps them
(R256, R257; log 8, log 9). -/
def Obligations.WellBehavedHostNeverMeetsAStop : Prop :=
  ∀ (n : Nat) (s : State), HostWellBehaved s → ∃ t, Sys2Proof.core.run n s = .next t ∧ HostWellBehaved t

/-- The state after a sequence of events does not depend on what the host does later: a run of the first events ends in
the same state with the later events still to come (R59, R62). -/
def Obligations.LaterCommandsAreNotSeen : Prop :=
  ∀ (s t : State) (now later : List HostEvent),
    Sys2Proof.core.run now.length { s with inbox := now } = .next t →
    t.inbox = [] ∧ Sys2Proof.core.run now.length { s with inbox := now ++ later } = .next { t with inbox := later }

/-- The invariant holds at reset: the string buffer is canonical, and `REC` is zero as `RV` is 0 (R25, R37; the canonical
form is the model's, log 7). -/
def Obligations.InvariantHoldsAtReset : Prop := Inv State.reset

/-- Every step from a state with the invariant keeps it: the string buffer stays canonical, and a record register that
holds no record stays all zeros (R25; the canonical form is the model's, log 7). -/
def Obligations.EveryStepKeepsTheInvariant : Prop :=
  ∀ s t : State, Inv s → step s = .next t → Inv t

/-- A command writes no register but those of its row in the table of reads and writes, and leaves the ports and the
host's list alone (R36). -/
def Obligations.CommandsWriteOnlyTheirRegisters : Prop :=
  ∀ (i : Instr) (s t : State), exec i s = .next t →
    (∀ r : Register, r ∉ writes i → AgreeOn s t r) ∧ SameHost s t

/-- A command's status and the registers it writes depend only on the registers of its row and the ports it samples: two
states that agree on those get the same status and, unless the command is refused, the same values (R35, R36). -/
def Obligations.CommandsDependOnlyOnWhatTheyRead : Prop :=
  ∀ (i : Instr) (s s' t t' : State), i ≠ .nop →
    (∀ r ∈ reads i, AgreeOn s s' r) → AgreeOnPayload s.ports s'.ports i →
    exec i s = .next t → exec i s' = .next t' →
    t.st = t'.st ∧ (t.st ≠ .badOperand → ∀ r ∈ writes i, AgreeOn t t' r)

/-- Repeating a command with the same ports from the state it produced yields that same state again (R56). -/
def Obligations.RepeatingACommandChangesNothing : Prop :=
  ∀ (i : Instr) (s t : State), exec i s = .next t → exec i t = .next t

/-- The complete list of causes of `BAD_OPERAND`, in both directions, and that a command so refused changes `ST` and
nothing else (R223). -/
def Obligations.BadOperandHasExactlyTheseCauses : Prop :=
  ∀ (i : Instr) (s : State),
    (BadOperandCause s i → ∃ t, exec i s = .next t ∧ OnlyStatus .badOperand s t) ∧
    (¬BadOperandCause s i → i ≠ .nop → ∃ t, exec i s = .next t ∧ t.st ≠ .badOperand)

/-- `INVALID_FORMAT` is raised by PARSE alone, exactly when the length is not 16 or a character is not alphanumeric
(R221). -/
def Obligations.InvalidFormatOnlyFromParse : Prop :=
  ∀ (i : Instr) (s t : State), i ≠ .nop → exec i s = .next t →
    (t.st = .invalidFormat ↔ i = .parse ∧ ¬HoldsValidString s)

/-- The record register changes only by PARSE, LDRAW or a reset: no other step changes `REC` or `RV` (R33, R250). -/
def Obligations.RecordChangesOnlyByParseLdrawOrReset : Prop :=
  ∀ s t : State, step s = .next t → ¬SameRecord s t →
    (∃ rest, s.inbox = .reset :: rest) ∨
    (∃ p rest, s.inbox = .command p :: rest ∧ (p.cw = 0x3000 ∨ p.cw = 0x0200))

/-- Each output port shows one register (R30); of `ST` it shows the 2-bit code: 0 `OK`, 1 `INVALID_FORMAT`,
2 `ILLEGAL_COMMAND`, 3 `BAD_OPERAND` (R29, R220). -/
def Obligations.OutputPortsShowTheRegisters : Prop :=
  (∀ s : State,
    s.outputs.dout = s.readREC ∧ (s.outputs.rvo = 1#1 ↔ s.rv = true) ∧
    (∀ i : Fin 16, s.outputs.sout.extractLsb' (8 * i.val) 8 = s.sb.cell i) ∧
    s.outputs.lout = s.slen ∧ s.outputs.reso = s.res ∧ s.outputs.sto = s.st.code) ∧
  (∀ x y : Status, x.code = y.code → x = y) ∧
  Status.code .ok = 0 ∧ Status.code .invalidFormat = 1 ∧ Status.code .illegalCommand = 2 ∧ Status.code .badOperand = 3

/-- The padding bits 79:74 of `REC` read as 0 in every state, and the fields of a record are its bit ranges (R21, R22). -/
def Obligations.RecordFieldsAreTheirBitRanges : Prop :=
  (∀ s : State, padField s.readREC = 0) ∧
  ∀ r : RecWord,
    (chkField r).toNat = r.toNat % 32 ∧ (mnumField r).toNat = r.toNat / 2 ^ 5 % 1024 ∧
    (mletField r).toNat = r.toNat / 2 ^ 15 % 32 ∧ (genField r).toNat = r.toNat / 2 ^ 20 % 2 ∧
    (dayField r).toNat = r.toNat / 2 ^ 21 % 32 ∧ (monField r).toNat = r.toNat / 2 ^ 26 % 16 ∧
    (yearField r).toNat = r.toNat / 2 ^ 30 % 128 ∧ (omaskField r).toNat = r.toNat / 2 ^ 67 % 128 ∧
    (padField r).toNat = r.toNat / 2 ^ 74 ∧
    (∀ j : Fin 6, (nameGroup r j).toNat = r.toNat / 2 ^ (62 - 5 * j.val) % 32)

/-- The ten-byte image of a record is little-endian, byte k being bits 8k+7:8k, and it holds the whole record: byte 0
holds `CHK` and the low three bits of `MNUM`, byte 9 holds `OMASK[6:5]` below the padding (R52). -/
def Obligations.RecordImageIsLittleEndian : Prop :=
  ∀ r : RecWord,
    recordOfImage (recordImage r) = r ∧
    (∀ k : Fin 10, (recordImage r)[k].toNat = r.toNat / 2 ^ (8 * k.val) % 256) ∧
    (recordImage r)[0].toNat = (chkField r).toNat + 32 * ((mnumField r).toNat % 8) ∧
    (recordImage r)[9].toNat = (omaskField r).toNat / 32 + 4 * (padField r).toNat

/-! ### Transfer commands (40_transfer.md) -/

/-- NOP changes nothing, not even `ST`; its word is 0x0000 and no other word 0x00xx is NOP or any command (R110). -/
def Obligations.NopChangesNothing : Prop :=
  (∀ s : State, exec .nop s = .next s) ∧ decode 0x0000 = .ok .nop ∧
  (∀ x : Byte, x ≠ 0 → ∃ e, decode (0x00#8 ++ x) = .error e)

/-- LDSTR stores all sixteen lanes of `SIN` and the length on `LIN`, whatever they are, and nothing else but `ST` (R111). -/
def Obligations.LdstrLoadsTheStringBuffer : Prop :=
  decode 0x0100 = .ok .ldstr ∧
  ∀ s : State, ∃ t, exec .ldstr s = .next t ∧
    (∀ i : Fin 16, t.sb.cell i = s.ports.sin.extractLsb' (8 * i.val) 8) ∧ t.slen = s.ports.lin ∧ t.st = .ok ∧
    t.res = s.res ∧ SameRecord s t ∧ SameHost s t

/-- LDRAW loads `DIN[73:0]` as the whole record, ignores `DIN[79:74]`, sets `RV`, validates nothing (R112). -/
def Obligations.LdrawLoadsTheRecord : Prop :=
  decode 0x0200 = .ok .ldraw ∧
  ∀ s : State, ∃ t, exec .ldraw s = .next t ∧
    t.readREC.toNat = s.ports.din.toNat % 2 ^ 74 ∧ t.rv = true ∧ t.st = .ok ∧
    t.res = s.res ∧ SameString s t ∧ SameHost s t

/-! ### Alphabet tables (41_alphabet_tables.md) -/

/-- The character classes are the ASCII ranges, and case folding subtracts 0x20 from a lower-case letter (R9). -/
def Obligations.CharacterClassesAreTheAsciiRanges : Prop :=
  ∀ c : Byte,
    (isdigit c = true ↔ 0x30 ≤ c.toNat ∧ c.toNat ≤ 0x39) ∧
    (isalpha c = true ↔ (0x41 ≤ c.toNat ∧ c.toNat ≤ 0x5A) ∨ (0x61 ≤ c.toNat ∧ c.toNat ≤ 0x7A)) ∧
    (isalnum c = true ↔ isalpha c = true ∨ isdigit c = true) ∧
    (upper c).toNat = if 0x61 ≤ c.toNat ∧ c.toNat ≤ 0x7A then c.toNat - 0x20 else c.toNat

/-- L2I yields the index of a letter in either case, 0 for every other code, in `RES` alone (R126). -/
def Obligations.L2iYieldsTheLetterIndex : Prop :=
  ∀ c : Byte, decode (0x1000#16 ||| c.setWidth 16) = .ok (.l2i c) ∧
  ∀ s : State, ∃ t, exec (.l2i c) s = .next t ∧ OnlyResult s t ∧
    t.res.toNat =
      if 0x41 ≤ c.toNat ∧ c.toNat ≤ 0x5A then c.toNat - 0x41
      else if 0x61 ≤ c.toNat ∧ c.toNat ≤ 0x7A then c.toNat - 0x61
      else 0

/-- I2L yields the letter of an index up to 25, and `'a'` for every larger number, in `RES` alone (R127). -/
def Obligations.I2lYieldsTheLetter : Prop :=
  ∀ n : Byte, decode (0x1100#16 ||| n.setWidth 16) = .ok (.i2l n) ∧
  ∀ s : State, ∃ t, exec (.i2l n) s = .next t ∧ OnlyResult s t ∧
    t.res.toNat = if n.toNat ≤ 25 then 0x41 + n.toNat else 0x61

/-- L2M yields the place of a month letter, in either case, in the sequence A, B, C, D, E, H, L, M, P, R, S, T, and 0
for every other code, in `RES` alone (R128). -/
def Obligations.L2mYieldsTheMonth : Prop :=
  ∀ c : Byte, decode (0x1200#16 ||| c.setWidth 16) = .ok (.l2m c) ∧
  ∀ s : State, ∃ t, exec (.l2m c) s = .next t ∧ OnlyResult s t ∧
    (let months : List Byte := [0x41, 0x42, 0x43, 0x44, 0x45, 0x48, 0x4C, 0x4D, 0x50, 0x52, 0x53, 0x54]
     (∀ k : Fin 12, c = months[k]! ∨ c = months[k]! + 0x20 → t.res.toNat = k.val + 1) ∧
     ((∀ m ∈ months, c ≠ m ∧ c ≠ m + 0x20) → t.res = 0))

/-- M2L yields the letter of a month 1 to 12, and `NUL` for every other number, in `RES` alone (R129). -/
def Obligations.M2lYieldsTheMonthLetter : Prop :=
  ∀ n : Byte, decode (0x1300#16 ||| n.setWidth 16) = .ok (.m2l n) ∧
  ∀ s : State, ∃ t, exec (.m2l n) s = .next t ∧ OnlyResult s t ∧
    t.res = (([0x00, 0x41, 0x42, 0x43, 0x44, 0x45, 0x48, 0x4C, 0x4D, 0x50, 0x52, 0x53, 0x54] : List ResWord).getD n.toNat 0x00)

/-- The five laws of the alphabet tables (R124). -/
def Obligations.AlphabetTableLaws : Prop :=
  (∀ n : Nat, 1 ≤ n → n ≤ 12 → (l2m (m2l n)).toNat = n) ∧
  (∀ c : Byte,
    (upper c ∈ [0x41#8, 0x42#8, 0x43#8, 0x44#8, 0x45#8, 0x48#8, 0x4C#8, 0x4D#8, 0x50#8, 0x52#8, 0x53#8, 0x54#8] →
      m2l (l2m c).toNat = upper c) ∧
    (upper c ∉ [0x41#8, 0x42#8, 0x43#8, 0x44#8, 0x45#8, 0x48#8, 0x4C#8, 0x4D#8, 0x50#8, 0x52#8, 0x53#8, 0x54#8] →
      m2l (l2m c).toNat = 0x00#8)) ∧
  (∀ n : Nat, (n ≤ 25 → (l2i (i2l n)).toNat = n) ∧ (25 < n → l2i (i2l n) = 0)) ∧
  (∀ c : Byte, (isalpha c = true → i2l (l2i c).toNat = upper c) ∧ (isalpha c = false → i2l (l2i c).toNat = 0x41#8)) ∧
  (∀ c : Byte, (l2i c).toNat ≤ 25 ∧ (l2m c).toNat ≤ 12)

/-! ### Omocodia substitution (42_omocodia.md) -/

/-- D2L yields the substitution letter L, M, N, P, Q, R, S, T, U, V of a digit character, in `RES` alone; every other
code is refused with `BAD_OPERAND` and `RES` stays (R146). -/
def Obligations.D2lYieldsTheSubstitutionLetter : Prop :=
  ∀ c : Byte, decode (0x2000#16 ||| c.setWidth 16) = .ok (.d2l c) ∧
  ∀ s : State,
    (∀ d : Fin 10, c.toNat = 0x30 + d.val → ∃ t, exec (.d2l c) s = .next t ∧ OnlyResult s t ∧
      t.res = ([0x4C, 0x4D, 0x4E, 0x50, 0x51, 0x52, 0x53, 0x54, 0x55, 0x56] : List ResWord)[d]!) ∧
    (¬(0x30 ≤ c.toNat ∧ c.toNat ≤ 0x39) → ∃ t, exec (.d2l c) s = .next t ∧ OnlyStatus .badOperand s t)

/-- L2D yields the digit CHARACTER of a substitution letter in either case, and `NUL` for every other code, in `RES`
alone (R147). -/
def Obligations.L2dYieldsTheDigitCharacter : Prop :=
  ∀ c : Byte, decode (0x2100#16 ||| c.setWidth 16) = .ok (.l2d c) ∧
  ∀ s : State, ∃ t, exec (.l2d c) s = .next t ∧ OnlyResult s t ∧
    (let letters : List Byte := [0x4C, 0x4D, 0x4E, 0x50, 0x51, 0x52, 0x53, 0x54, 0x55, 0x56]
     (∀ d : Fin 10, c = letters[d]! ∨ c = letters[d]! + 0x20 → t.res.toNat = 0x30 + d.val) ∧
     ((∀ m ∈ letters, c ≠ m ∧ c ≠ m + 0x20) → t.res = 0))

/-- The three laws of the substitution table (R142). -/
def Obligations.SubstitutionTableLaws : Prop :=
  (∀ d : Byte, isdigit d = true → ∃ c, d2l d = some c ∧ l2d c = d) ∧
  (∀ c : Byte, upper c ∈ [0x4C#8, 0x4D#8, 0x4E#8, 0x50#8, 0x51#8, 0x52#8, 0x53#8, 0x54#8, 0x55#8, 0x56#8] →
    d2l (l2d c) = some (upper c)) ∧
  (∀ d e c : Byte, d2l d = some c → d2l e = some c → d = e) ∧
  (∀ d c : Byte, d2l d = some c → isdigit c = false ∧ isalpha c = true)

/-- EMASK yields one bit for each eligible position, set for a letter: positions 6, 7, 9, 10, 12, 13, 14 at bits 6 down
to 0, in `RES` alone; with a length other than 16 it is refused (R148). -/
def Obligations.EmaskYieldsTheMask : Prop :=
  decode 0x2200 = .ok .emask ∧
  ∀ s : State,
    (s.slen = 16#8 → ∃ t, exec .emask s = .next t ∧ OnlyResult s t ∧
      t.res.toNat =
        64 * (isalpha (s.sb.cell 6)).toNat + 32 * (isalpha (s.sb.cell 7)).toNat + 16 * (isalpha (s.sb.cell 9)).toNat +
        8 * (isalpha (s.sb.cell 10)).toNat + 4 * (isalpha (s.sb.cell 12)).toNat + 2 * (isalpha (s.sb.cell 13)).toNat +
        (isalpha (s.sb.cell 14)).toNat) ∧
    (s.slen ≠ 16#8 → ∃ t, exec .emask s = .next t ∧ OnlyStatus .badOperand s t)

/-- The three properties of the mask: it depends only on which of the seven eligible characters are letters; all digits
give 0x00 and all letters 0x7F; and the mask of a formatted well-formed record is its `OMASK` (R144). -/
def Obligations.MaskDependsOnlyOnEligiblePositions : Prop :=
  (∀ s t : Chars, (∀ p ∈ eligiblePositions, isalpha s[p] = isalpha t[p]) → emask s = emask t) ∧
  (∀ s : Chars, ((∀ p ∈ eligiblePositions, isdigit s[p] = true) → emask s = 0x00#7) ∧
    ((∀ p ∈ eligiblePositions, isalpha s[p] = true) → emask s = 0x7F#7)) ∧
  (∀ r : RecWord, wellFormedRecord r = true → emask (format r) = omaskField r)

/-! ### The packed record codec (43_codec.md) -/

/-- PARSE stores the record of a valid string, sets `RV` and `ST` = `OK`; on any other string it empties the record
register with `INVALID_FORMAT`. `SB`, `SLEN` and `RES` stay in both branches (R173). -/
def Obligations.ParseStoresTheRecordOrEmptiesIt : Prop :=
  decode 0x3000 = .ok .parse ∧
  ∀ s : State,
    (HoldsValidString s → ∃ t, exec .parse s = .next t ∧
      t.readREC = (parseOk Config.params s.readSB).setWidth 80 ∧ t.rv = true ∧ t.st = .ok ∧
      t.res = s.res ∧ SameString s t ∧ SameHost s t) ∧
    (¬HoldsValidString s → ∃ t, exec .parse s = .next t ∧
      t.readREC = 0 ∧ t.rv = false ∧ t.st = .invalidFormat ∧ t.res = s.res ∧ SameString s t ∧ SameHost s t)

/-- The assembly of a record: each field at its place, disjoint, so that the OR is a sum, under every value of the
parameters (R171); and of the name block, the leftmost letter in the highest five bits, each on its own (R163). -/
def Obligations.ParseAssemblesTheFields : Prop :=
  ∀ (p : CodecParams) (s : Chars),
    let dg := splitDayGender (dayGenderValue p.numericFallback s)
    (parseOk p s).toNat =
      (emask s).toNat * 2 ^ 67 + (parseName s).toNat * 2 ^ 37 + parseYear p.numericFallback s * 2 ^ 30 +
      (l2m s[8]).toNat * 2 ^ 26 + (storedDay p.dayOverflow dg.1).toNat * 2 ^ 21 + dg.2.toNat * 2 ^ 20 +
      (l2i s[11]).toNat * 2 ^ 15 + parseMnum p.numericFallback s * 2 ^ 5 + (l2i s[15]).toNat ∧
    (parseName s).toNat =
      (l2i s[0]).toNat * 2 ^ 25 + (l2i s[1]).toNat * 2 ^ 20 + (l2i s[2]).toNat * 2 ^ 15 +
      (l2i s[3]).toNat * 2 ^ 10 + (l2i s[4]).toNat * 2 ^ 5 + (l2i s[5]).toNat

/-- A numeric field reads its characters as decimal digits, a substitution letter in either case counting as its digit,
the leftmost with the highest weight; and one letter outside the ten makes the whole field 0 under the spec's default
`FIELD_ZERO` (R162, R164, R166, R169, R10; the default is log 5). -/
def Obligations.NumericFieldsReadDigitsAndSubstitutionLetters : Prop :=
  let means : Byte → Fin 10 → Prop :=
    fun c d => c = chr d ∨ c = substitutionLetter d ∨ c = substitutionLetter d + 0x20#8
  let unmappable : Byte → Prop := fun c => isalpha c = true ∧ ∀ d : Fin 10, ¬means c d
  ∀ s : Chars,
    (∀ (f : NumericFallback) (a b : Fin 10), means s[6] a → means s[7] b → parseYear f s = 10 * a.val + b.val) ∧
    (∀ (f : NumericFallback) (a b : Fin 10), means s[9] a → means s[10] b → dayGenderValue f s = 10 * a.val + b.val) ∧
    (∀ (f : NumericFallback) (a b c : Fin 10), means s[12] a → means s[13] b → means s[14] c →
      parseMnum f s = 100 * a.val + 10 * b.val + c.val) ∧
    (unmappable s[6] ∨ unmappable s[7] → parseYear .fieldZero s = 0) ∧
    (unmappable s[9] ∨ unmappable s[10] → dayGenderValue .fieldZero s = 0) ∧
    (unmappable s[12] ∨ unmappable s[13] ∨ unmappable s[14] → parseMnum .fieldZero s = 0)

/-- Day and gender of a parsed string: above 39 is female with 40 subtracted, and `DAY` keeps the low five bits of the
day value (R166, R167; the parameters at the spec's defaults, log 4). -/
def Obligations.DayAndGenderOfAParsedString : Prop :=
  ∀ s : State, HoldsValidString s →
    ∃ t, exec .parse s = .next t ∧
      (let v := dayGenderValue .fieldZero s.readSB
       v ≤ 99 ∧
       (v ≤ 39 → genField t.readREC = 1 ∧ (dayField t.readREC).toNat = v % 32) ∧
       (40 ≤ v → genField t.readREC = 0 ∧ (dayField t.readREC).toNat = (v - 40) % 32))

/-- What a successful parse guarantees, under every value of the parameters (R180). -/
def Obligations.ParsedRecordsAreInRange : Prop :=
  ∀ (p : CodecParams) (s : Chars), valid16 16 s = true →
    let r : RecWord := (parseOk p s).setWidth 80
    wellFormedRecord r = true ∧ lettersInRange r = true ∧ (monField r).toNat ≤ 12 ∧ (dayField r).toNat ≤ 31 ∧
    padField r = 0 ∧ omaskField r = emask s ∧
    (∀ i : Fin 16, (format r)[i] ≠ 0x61#8) ∧
    ((∃ i : Fin 16, (format r)[i] = 0x00#8) ↔ l2m s[8] = 0) ∧
    (∀ u : State, u.readREC = r → u.rv = true → ∃ t, exec .format u = .next t ∧ t.st = .ok)

/-- FORMAT writes the sixteen characters of the record and `SLEN` = 16; with no record, or one that is not well formed,
it is refused and `SB` and `SLEN` stay (R178). -/
def Obligations.FormatWritesTheString : Prop :=
  decode 0x3100 = .ok .format ∧
  ∀ s : State,
    (s.rv = true → (yearField s.readREC).toNat ≤ 99 → (mnumField s.readREC).toNat ≤ 999 →
      ∃ t, exec .format s = .next t ∧ (∀ i : Fin 16, t.sb.cell i = (format s.readREC)[i]) ∧ t.slen = 16#8 ∧
        t.st = .ok ∧ t.res = s.res ∧ SameRecord s t ∧ SameHost s t) ∧
    (s.rv = false ∨ (yearField s.readREC).toNat > 99 ∨ (mnumField s.readREC).toNat > 999 →
      ∃ t, exec .format s = .next t ∧ OnlyStatus .badOperand s t)

/-- The characters that format renders: letters by index, the month letter, and each digit of the zero-padded year, day
value and municipality number as itself or, where its mask bit is 1, as its substitution letter (R174, R175). -/
def Obligations.FormatRendersEachField : Prop :=
  let renders : Byte → Nat → Bool → Prop := fun c d b =>
    c = if b then ([0x4C, 0x4D, 0x4E, 0x50, 0x51, 0x52, 0x53, 0x54, 0x55, 0x56] : List Byte)[d]!
        else BitVec.ofNat 8 (0x30 + d)
  ∀ r : RecWord, wellFormedRecord r = true →
    let t := format r
    let y := (yearField r).toNat
    let n := (mnumField r).toNat
    let v := if genField r = 1 then (dayField r).toNat else (dayField r).toNat + 40
    (∀ j : Fin 6, t[j.val] = i2l (nameGroup r j).toNat) ∧ t[11] = i2l (mletField r).toNat ∧
    t[15] = i2l (chkField r).toNat ∧ t[8] = m2l (monField r).toNat ∧
    renders t[6] (y / 10) (r.getLsbD 73) ∧ renders t[7] (y % 10) (r.getLsbD 72) ∧
    renders t[9] (v / 10) (r.getLsbD 71) ∧ renders t[10] (v % 10) (r.getLsbD 70) ∧
    renders t[12] (n / 100) (r.getLsbD 69) ∧ renders t[13] (n / 10 % 10) (r.getLsbD 68) ∧
    renders t[14] (n % 10) (r.getLsbD 67)

/-- The sentinels in the output: a letter index above 25 shows as `'a'`, a month outside 1 to 12 as `NUL` at index 8, a
day of 0 as the digits 00 or 40, and the output is upper-case alphanumeric exactly when neither of the first two occurs
(R177). -/
def Obligations.FormatShowsSentinels : Prop :=
  ∀ r : RecWord, wellFormedRecord r = true →
    (∀ j : Fin 6, 25 < (nameGroup r j).toNat → (format r)[j.val] = 0x61#8) ∧
    (25 < (mletField r).toNat → (format r)[11] = 0x61#8) ∧ (25 < (chkField r).toNat → (format r)[15] = 0x61#8) ∧
    ((monField r).toNat = 0 ∨ 12 < (monField r).toNat → (format r)[8] = 0x00#8) ∧
    ((dayField r).toNat = 0 → r.getLsbD 71 = false → r.getLsbD 70 = false →
      (format r)[9] = (if genField r = 1 then 0x30#8 else 0x34#8) ∧ (format r)[10] = 0x30#8) ∧
    ((∀ i : Fin 16, isupper (format r)[i] = true ∨ isdigit (format r)[i] = true) ↔
      lettersInRange r = true ∧ 1 ≤ (monField r).toNat ∧ (monField r).toNat ≤ 12)

/-- The inverse law: a canonical record formats to sixteen upper-case letters and digits, and parsing them gives the
record back, under every value of the parameters (R181). -/
def Obligations.ParseInvertsFormatOnCanonicalRecords : Prop :=
  ∀ (p : CodecParams) (r : RecWord), canonical r = true →
    (∀ i : Fin 16, isupper (format r)[i] = true ∨ isdigit (format r)[i] = true) ∧
    valid16 16 (format r) = true ∧ parse p 16 (format r) = .ok r

/-- The first round-trip contract: for a valid string with a month letter at index 8, parsing the formatted record gives
the same record; with none, that parse fails, under every value of the parameters (R182). -/
def Obligations.ParseFormatParseIsParse : Prop :=
  ∀ (p : CodecParams) (s : Chars) (r : RecWord), parse p 16 s = .ok r →
    (l2m s[8] ≠ 0 → parse p 16 (format r) = .ok r) ∧
    (l2m s[8] = 0 → parse p 16 (format r) = .error .invalidFormat)

/-- The day normalisation law, in both directions, under every value of `DAY_OVERFLOW` (R183). -/
def Obligations.DayNormalisation : Prop :=
  (∀ d : BitVec 5, splitDayGender d.toNat = (d.toNat, 1#1) ∧ splitDayGender (d.toNat + 40) = (d.toNat, 0#1)) ∧
  (∀ (o : DayOverflow) (d : BitVec 5), storedDay o d.toNat = d) ∧
  (∀ (o : DayOverflow) (r : RecWord) (v : Nat), v ≤ 99 →
    genField r = (splitDayGender v).2 → dayField r = storedDay o (splitDayGender v).1 →
    (renderedDayValue r = v ↔ v ≤ 31 ∨ (40 ≤ v ∧ v ≤ 71)))

/-- Exactly when formatting a parsed string gives the string back, and that a string which meets the conditions but for
its case comes back in upper case, under every value of the parameters (R184). -/
def Obligations.FormatReproducesTheStringExactlyWhen : Prop :=
  let consistent : CodecParams → Chars → Prop := fun p s =>
    (∀ i : Fin 16, islower s[i] = false) ∧
    (∀ i ∈ ([0, 1, 2, 3, 4, 5, 11, 15] : List (Fin 16)), isalpha s[i] = true) ∧
    s[8] ∈ [0x41#8, 0x42#8, 0x43#8, 0x44#8, 0x45#8, 0x48#8, 0x4C#8, 0x4D#8, 0x50#8, 0x52#8, 0x53#8, 0x54#8] ∧
    (∀ i ∈ eligiblePositions, isdigit s[i] = true ∨
      s[i] ∈ [0x4C#8, 0x4D#8, 0x4E#8, 0x50#8, 0x51#8, 0x52#8, 0x53#8, 0x54#8, 0x55#8, 0x56#8]) ∧
    (dayGenderValue p.numericFallback s ≤ 31 ∨
      (40 ≤ dayGenderValue p.numericFallback s ∧ dayGenderValue p.numericFallback s ≤ 71))
  ∀ (p : CodecParams) (s : Chars), valid16 16 s = true →
    let folded : Chars := Vector.ofFn fun i => upper s[i]
    (format ((parseOk p s).setWidth 80) = s ↔ consistent p s) ∧
    (consistent p folded → format ((parseOk p s).setWidth 80) = folded)

/-- On the machine: FORMAT of a canonical record and then PARSE leaves the same record, valid, with the formatted string
still in the buffer (R173, R178, R181). -/
def Obligations.FormatThenParseKeepsTheRecord : Prop :=
  ∀ s : State, s.rv = true → canonical s.readREC = true →
    ∃ t u, exec .format s = .next t ∧ exec .parse t = .next u ∧
      u.readREC = s.readREC ∧ u.rv = true ∧ u.st = .ok ∧ SameString t u ∧ u.res = s.res

/-- The pseudo-instructions are the source's `parse` and `format` in one line (R88, R89). PARSESTR, for a string of any
length: the buffer holds its first sixteen characters with 0x00 in the lanes above it, `SLEN` is min(length, 255) (R31),
and the record is that of the string, or empty with `INVALID_FORMAT` when the length is not 16 or parse fails. FMTRAW, for
any raw record: the record is held, and its string is in the buffer, or `BAD_OPERAND` leaves the buffer as it was. -/
def Obligations.ParsestrIsParse : Prop :=
  (∀ (s : State) (l : List Byte),
    ∃ t, Sys2Proof.core.run 2 (s.withProgram [.parsestr l]) = .next t ∧ t.inbox = s.inbox ∧ t.res = s.res ∧
      (∀ i : Fin 16, t.sb.cell i = if h : i.val < l.length then l[i.val] else 0x00#8) ∧
      t.slen.toNat = min l.length 255 ∧
      (∀ (c : Chars) (r : RecWord), c.toList = l → parse Config.params 16 c = .ok r →
        t.readREC = r ∧ t.rv = true ∧ t.st = .ok) ∧
      (∀ c : Chars, c.toList = l → parse Config.params 16 c = .error .invalidFormat →
        t.readREC = 0 ∧ t.rv = false ∧ t.st = .invalidFormat) ∧
      (l.length ≠ 16 → t.readREC = 0 ∧ t.rv = false ∧ t.st = .invalidFormat)) ∧
  (∀ (s : State) (v : RecWord),
    ∃ t, Sys2Proof.core.run 2 (s.withProgram [.fmtraw v]) = .next t ∧ t.inbox = s.inbox ∧ t.res = s.res ∧
      t.readREC.toNat = v.toNat % 2 ^ 74 ∧ t.rv = true ∧
      ((yearField v).toNat ≤ 99 ∧ (mnumField v).toNat ≤ 999 →
        (∀ i : Fin 16, t.sb.cell i = (format t.readREC)[i]) ∧ t.slen = 16#8 ∧ t.st = .ok) ∧
      ((yearField v).toNat > 99 ∨ (mnumField v).toNat > 999 → SameString s t ∧ t.st = .badOperand))

/-! ### Field accessors (44_accessors.md) -/

/-- GNAME yields the six letters of the name block, the leftmost in the lowest byte; with no record it is refused
(R201). -/
def Obligations.GnameYieldsTheNameLetters : Prop :=
  decode 0x4000 = .ok .gname ∧
  ∀ s : State,
    (s.rv = true → ∃ t, exec .gname s = .next t ∧ OnlyResult s t ∧
      ∀ j : Fin 6, t.res.extractLsb' (8 * j.val) 8 = i2l (s.readREC.toNat / 2 ^ (62 - 5 * j.val) % 32)) ∧
    (s.rv = false → ∃ t, exec .gname s = .next t ∧ OnlyStatus .badOperand s t)

/-- GYEAR yields the raw 7-bit year; with no record it is refused (R202). -/
def Obligations.GyearYieldsTheYear : Prop :=
  decode 0x4100 = .ok .gyear ∧
  ∀ s : State,
    (s.rv = true → ∃ t, exec .gyear s = .next t ∧ OnlyResult s t ∧ t.res.toNat = s.readREC.toNat / 2 ^ 30 % 128) ∧
    (s.rv = false → ∃ t, exec .gyear s = .next t ∧ OnlyStatus .badOperand s t)

/-- GMONTH yields the raw 4-bit month number; with no record it is refused (R203). -/
def Obligations.GmonthYieldsTheMonth : Prop :=
  decode 0x4200 = .ok .gmonth ∧
  ∀ s : State,
    (s.rv = true → ∃ t, exec .gmonth s = .next t ∧ OnlyResult s t ∧ t.res.toNat = s.readREC.toNat / 2 ^ 26 % 16) ∧
    (s.rv = false → ∃ t, exec .gmonth s = .next t ∧ OnlyStatus .badOperand s t)

/-- GDAY yields the day, the offset already removed; with no record it is refused (R204). -/
def Obligations.GdayYieldsTheDay : Prop :=
  decode 0x4300 = .ok .gday ∧
  ∀ s : State,
    (s.rv = true → ∃ t, exec .gday s = .next t ∧ OnlyResult s t ∧ t.res.toNat = s.readREC.toNat / 2 ^ 21 % 32) ∧
    (s.rv = false → ∃ t, exec .gday s = .next t ∧ OnlyStatus .badOperand s t)

/-- GGEN yields the gender marker bit; with no record it is refused (R205). -/
def Obligations.GgenYieldsTheGenderBit : Prop :=
  decode 0x4400 = .ok .ggen ∧
  ∀ s : State,
    (s.rv = true → ∃ t, exec .ggen s = .next t ∧ OnlyResult s t ∧ t.res.toNat = s.readREC.toNat / 2 ^ 20 % 2) ∧
    (s.rv = false → ∃ t, exec .ggen s = .next t ∧ OnlyStatus .badOperand s t)

/-- GMUNI yields the letter and the three plain digits of the number, the letter in the lowest byte; with no record, or a
number above 999, it is refused, and it does not look at the year or the mask (R206). -/
def Obligations.GmuniYieldsLetterAndThreeDigits : Prop :=
  decode 0x4500 = .ok .gmuni ∧
  ∀ s : State,
    (s.rv = true → (mnumField s.readREC).toNat ≤ 999 → ∃ t, exec .gmuni s = .next t ∧ OnlyResult s t ∧
      (let n := s.readREC.toNat / 2 ^ 5 % 1024
       t.res.extractLsb' 0 8 = i2l (s.readREC.toNat / 2 ^ 15 % 32) ∧
       (t.res.extractLsb' 8 8).toNat = 0x30 + n / 100 ∧ (t.res.extractLsb' 16 8).toNat = 0x30 + n / 10 % 10 ∧
       (t.res.extractLsb' 24 8).toNat = 0x30 + n % 10 ∧ t.res.extractLsb' 32 16 = 0)) ∧
    (s.rv = false ∨ (mnumField s.readREC).toNat > 999 →
      ∃ t, exec .gmuni s = .next t ∧ OnlyStatus .badOperand s t)

/-- GCHK yields the check letter as stored; with no record it is refused (R207). -/
def Obligations.GchkYieldsTheCheckLetter : Prop :=
  decode 0x4600 = .ok .gchk ∧
  ∀ s : State,
    (s.rv = true → ∃ t, exec .gchk s = .next t ∧ OnlyResult s t ∧
      t.res = (i2l (s.readREC.toNat % 32)).setWidth 48) ∧
    (s.rv = false → ∃ t, exec .gchk s = .next t ∧ OnlyStatus .badOperand s t)
end

