-- ==== Sys2Proof/Laws/State.lean ====
section
/-! SUPPORT. What each update of the state leaves in each field: one lemma per field per update. -/

namespace Sys2Proof.Machine

variable (s : State)

@[simp] theorem State.writeST_recBits (x : Status) : (s.writeST x).recBits = s.recBits := rfl
@[simp] theorem State.writeST_rv (x : Status) : (s.writeST x).rv = s.rv := rfl
@[simp] theorem State.writeST_sb (x : Status) : (s.writeST x).sb = s.sb := rfl
@[simp] theorem State.writeST_slen (x : Status) : (s.writeST x).slen = s.slen := rfl
@[simp] theorem State.writeST_res (x : Status) : (s.writeST x).res = s.res := rfl
@[simp] theorem State.writeST_st (x : Status) : (s.writeST x).st = x := rfl
@[simp] theorem State.writeST_ports (x : Status) : (s.writeST x).ports = s.ports := rfl
@[simp] theorem State.writeST_inbox (x : Status) : (s.writeST x).inbox = s.inbox := rfl

@[simp] theorem State.writeRV_recBits (b : Bool) : (s.writeRV b).recBits = s.recBits := rfl
@[simp] theorem State.writeRV_rv (b : Bool) : (s.writeRV b).rv = b := rfl
@[simp] theorem State.writeRV_sb (b : Bool) : (s.writeRV b).sb = s.sb := rfl
@[simp] theorem State.writeRV_slen (b : Bool) : (s.writeRV b).slen = s.slen := rfl
@[simp] theorem State.writeRV_res (b : Bool) : (s.writeRV b).res = s.res := rfl
@[simp] theorem State.writeRV_st (b : Bool) : (s.writeRV b).st = s.st := rfl
@[simp] theorem State.writeRV_ports (b : Bool) : (s.writeRV b).ports = s.ports := rfl
@[simp] theorem State.writeRV_inbox (b : Bool) : (s.writeRV b).inbox = s.inbox := rfl

@[simp] theorem State.writeREC_recBits (v : RecWord) : (s.writeREC v).recBits = v.setWidth 74 := rfl
@[simp] theorem State.writeREC_rv (v : RecWord) : (s.writeREC v).rv = s.rv := rfl
@[simp] theorem State.writeREC_sb (v : RecWord) : (s.writeREC v).sb = s.sb := rfl
@[simp] theorem State.writeREC_slen (v : RecWord) : (s.writeREC v).slen = s.slen := rfl
@[simp] theorem State.writeREC_res (v : RecWord) : (s.writeREC v).res = s.res := rfl
@[simp] theorem State.writeREC_st (v : RecWord) : (s.writeREC v).st = s.st := rfl
@[simp] theorem State.writeREC_ports (v : RecWord) : (s.writeREC v).ports = s.ports := rfl
@[simp] theorem State.writeREC_inbox (v : RecWord) : (s.writeREC v).inbox = s.inbox := rfl

@[simp] theorem State.writeSB_recBits (c : Chars) : (s.writeSB c).recBits = s.recBits := rfl
@[simp] theorem State.writeSB_rv (c : Chars) : (s.writeSB c).rv = s.rv := rfl
@[simp] theorem State.writeSB_sb (c : Chars) : (s.writeSB c).sb = Memory.store c := rfl
@[simp] theorem State.writeSB_slen (c : Chars) : (s.writeSB c).slen = s.slen := rfl
@[simp] theorem State.writeSB_res (c : Chars) : (s.writeSB c).res = s.res := rfl
@[simp] theorem State.writeSB_st (c : Chars) : (s.writeSB c).st = s.st := rfl
@[simp] theorem State.writeSB_ports (c : Chars) : (s.writeSB c).ports = s.ports := rfl
@[simp] theorem State.writeSB_inbox (c : Chars) : (s.writeSB c).inbox = s.inbox := rfl

@[simp] theorem State.writeSLEN_recBits (n : Byte) : (s.writeSLEN n).recBits = s.recBits := rfl
@[simp] theorem State.writeSLEN_rv (n : Byte) : (s.writeSLEN n).rv = s.rv := rfl
@[simp] theorem State.writeSLEN_sb (n : Byte) : (s.writeSLEN n).sb = s.sb := rfl
@[simp] theorem State.writeSLEN_slen (n : Byte) : (s.writeSLEN n).slen = n := rfl
@[simp] theorem State.writeSLEN_res (n : Byte) : (s.writeSLEN n).res = s.res := rfl
@[simp] theorem State.writeSLEN_st (n : Byte) : (s.writeSLEN n).st = s.st := rfl
@[simp] theorem State.writeSLEN_ports (n : Byte) : (s.writeSLEN n).ports = s.ports := rfl
@[simp] theorem State.writeSLEN_inbox (n : Byte) : (s.writeSLEN n).inbox = s.inbox := rfl

@[simp] theorem State.writeRES_recBits (v : ResWord) : (s.writeRES v).recBits = s.recBits := rfl
@[simp] theorem State.writeRES_rv (v : ResWord) : (s.writeRES v).rv = s.rv := rfl
@[simp] theorem State.writeRES_sb (v : ResWord) : (s.writeRES v).sb = s.sb := rfl
@[simp] theorem State.writeRES_slen (v : ResWord) : (s.writeRES v).slen = s.slen := rfl
@[simp] theorem State.writeRES_res (v : ResWord) : (s.writeRES v).res = v := rfl
@[simp] theorem State.writeRES_st (v : ResWord) : (s.writeRES v).st = s.st := rfl
@[simp] theorem State.writeRES_ports (v : ResWord) : (s.writeRES v).ports = s.ports := rfl
@[simp] theorem State.writeRES_inbox (v : ResWord) : (s.writeRES v).inbox = s.inbox := rfl

@[simp] theorem State.raise_recBits (x : Status) : (s.raise x).recBits = s.recBits := rfl
@[simp] theorem State.raise_rv (x : Status) : (s.raise x).rv = s.rv := rfl
@[simp] theorem State.raise_sb (x : Status) : (s.raise x).sb = s.sb := rfl
@[simp] theorem State.raise_slen (x : Status) : (s.raise x).slen = s.slen := rfl
@[simp] theorem State.raise_res (x : Status) : (s.raise x).res = s.res := rfl
@[simp] theorem State.raise_st (x : Status) : (s.raise x).st = x := rfl
@[simp] theorem State.raise_ports (x : Status) : (s.raise x).ports = s.ports := rfl
@[simp] theorem State.raise_inbox (x : Status) : (s.raise x).inbox = s.inbox := rfl

@[simp] theorem State.yieldResult_recBits (v : ResWord) : (s.yieldResult v).recBits = s.recBits := rfl
@[simp] theorem State.yieldResult_rv (v : ResWord) : (s.yieldResult v).rv = s.rv := rfl
@[simp] theorem State.yieldResult_sb (v : ResWord) : (s.yieldResult v).sb = s.sb := rfl
@[simp] theorem State.yieldResult_slen (v : ResWord) : (s.yieldResult v).slen = s.slen := rfl
@[simp] theorem State.yieldResult_res (v : ResWord) : (s.yieldResult v).res = v := rfl
@[simp] theorem State.yieldResult_st (v : ResWord) : (s.yieldResult v).st = .ok := rfl
@[simp] theorem State.yieldResult_ports (v : ResWord) : (s.yieldResult v).ports = s.ports := rfl
@[simp] theorem State.yieldResult_inbox (v : ResWord) : (s.yieldResult v).inbox = s.inbox := rfl

@[simp] theorem State.illegalCommand_recBits : (s.illegalCommand).recBits = s.recBits := rfl
@[simp] theorem State.illegalCommand_rv : (s.illegalCommand).rv = s.rv := rfl
@[simp] theorem State.illegalCommand_sb : (s.illegalCommand).sb = s.sb := rfl
@[simp] theorem State.illegalCommand_slen : (s.illegalCommand).slen = s.slen := rfl
@[simp] theorem State.illegalCommand_res : (s.illegalCommand).res = s.res := rfl
@[simp] theorem State.illegalCommand_st : (s.illegalCommand).st = .illegalCommand := rfl
@[simp] theorem State.illegalCommand_ports : (s.illegalCommand).ports = s.ports := rfl
@[simp] theorem State.illegalCommand_inbox : (s.illegalCommand).inbox = s.inbox := rfl

@[simp] theorem State.accept_recBits (p : Ports) (rest : List HostEvent) : (s.accept p rest).recBits = s.recBits := rfl
@[simp] theorem State.accept_rv (p : Ports) (rest : List HostEvent) : (s.accept p rest).rv = s.rv := rfl
@[simp] theorem State.accept_sb (p : Ports) (rest : List HostEvent) : (s.accept p rest).sb = s.sb := rfl
@[simp] theorem State.accept_slen (p : Ports) (rest : List HostEvent) : (s.accept p rest).slen = s.slen := rfl
@[simp] theorem State.accept_res (p : Ports) (rest : List HostEvent) : (s.accept p rest).res = s.res := rfl
@[simp] theorem State.accept_st (p : Ports) (rest : List HostEvent) : (s.accept p rest).st = s.st := rfl
@[simp] theorem State.accept_ports (p : Ports) (rest : List HostEvent) : (s.accept p rest).ports = p := rfl
@[simp] theorem State.accept_inbox (p : Ports) (rest : List HostEvent) : (s.accept p rest).inbox = rest := rfl

@[simp] theorem State.takeReset_recBits (rest : List HostEvent) : (s.takeReset rest).recBits = 0 := rfl
@[simp] theorem State.takeReset_rv (rest : List HostEvent) : (s.takeReset rest).rv = false := rfl
@[simp] theorem State.takeReset_sb (rest : List HostEvent) : (s.takeReset rest).sb = [] := rfl
@[simp] theorem State.takeReset_slen (rest : List HostEvent) : (s.takeReset rest).slen = 0 := rfl
@[simp] theorem State.takeReset_res (rest : List HostEvent) : (s.takeReset rest).res = 0 := rfl
@[simp] theorem State.takeReset_st (rest : List HostEvent) : (s.takeReset rest).st = .ok := rfl
@[simp] theorem State.takeReset_ports (rest : List HostEvent) : (s.takeReset rest).ports = s.ports := rfl
@[simp] theorem State.takeReset_inbox (rest : List HostEvent) : (s.takeReset rest).inbox = rest := rfl

@[simp] theorem State.presentWord_recBits (w : CmdWord) : (s.presentWord w).recBits = s.recBits := rfl
@[simp] theorem State.presentWord_rv (w : CmdWord) : (s.presentWord w).rv = s.rv := rfl
@[simp] theorem State.presentWord_sb (w : CmdWord) : (s.presentWord w).sb = s.sb := rfl
@[simp] theorem State.presentWord_slen (w : CmdWord) : (s.presentWord w).slen = s.slen := rfl
@[simp] theorem State.presentWord_res (w : CmdWord) : (s.presentWord w).res = s.res := rfl
@[simp] theorem State.presentWord_st (w : CmdWord) : (s.presentWord w).st = s.st := rfl
@[simp] theorem State.presentWord_ports (w : CmdWord) : (s.presentWord w).ports = s.ports := rfl
@[simp] theorem State.presentWord_inbox (w : CmdWord) : (s.presentWord w).inbox = .command { s.ports with cw := w } :: s.inbox := rfl

/-! `REC` and `SB` as they read. -/

@[simp] theorem State.writeST_readREC (x : Status) : (s.writeST x).readREC = s.readREC := rfl
@[simp] theorem State.writeST_readSB (x : Status) : (s.writeST x).readSB = s.readSB := rfl
@[simp] theorem State.writeRV_readREC (b : Bool) : (s.writeRV b).readREC = s.readREC := rfl
@[simp] theorem State.writeRV_readSB (b : Bool) : (s.writeRV b).readSB = s.readSB := rfl
@[simp] theorem State.writeREC_readSB (v : RecWord) : (s.writeREC v).readSB = s.readSB := rfl
@[simp] theorem State.writeSB_readREC (c : Chars) : (s.writeSB c).readREC = s.readREC := rfl
@[simp] theorem State.writeSLEN_readREC (n : Byte) : (s.writeSLEN n).readREC = s.readREC := rfl
@[simp] theorem State.writeSLEN_readSB (n : Byte) : (s.writeSLEN n).readSB = s.readSB := rfl
@[simp] theorem State.writeRES_readREC (v : ResWord) : (s.writeRES v).readREC = s.readREC := rfl
@[simp] theorem State.writeRES_readSB (v : ResWord) : (s.writeRES v).readSB = s.readSB := rfl
@[simp] theorem State.raise_readREC (x : Status) : (s.raise x).readREC = s.readREC := rfl
@[simp] theorem State.raise_readSB (x : Status) : (s.raise x).readSB = s.readSB := rfl
@[simp] theorem State.yieldResult_readREC (v : ResWord) : (s.yieldResult v).readREC = s.readREC := rfl
@[simp] theorem State.yieldResult_readSB (v : ResWord) : (s.yieldResult v).readSB = s.readSB := rfl
@[simp] theorem State.illegalCommand_readREC : (s.illegalCommand).readREC = s.readREC := rfl
@[simp] theorem State.illegalCommand_readSB : (s.illegalCommand).readSB = s.readSB := rfl
@[simp] theorem State.accept_readREC (p : Ports) (rest : List HostEvent) : (s.accept p rest).readREC = s.readREC := rfl
@[simp] theorem State.accept_readSB (p : Ports) (rest : List HostEvent) : (s.accept p rest).readSB = s.readSB := rfl
@[simp] theorem State.takeReset_readREC (rest : List HostEvent) : (s.takeReset rest).readREC = 0 := rfl
@[simp] theorem State.presentWord_readREC (w : CmdWord) : (s.presentWord w).readREC = s.readREC := rfl
@[simp] theorem State.presentWord_readSB (w : CmdWord) : (s.presentWord w).readSB = s.readSB := rfl

/-- Writing `REC` keeps bits 73:0 of the value; bits 79:74 read as 0 (10_state.md R21). -/
@[simp] theorem State.writeREC_readREC (v : RecWord) : (s.writeREC v).readREC = (v.setWidth 74).setWidth 80 := rfl

/-- A 74-bit record value written to `REC` reads back as it is. -/
theorem State.writeREC_setWidth_readREC (v : SigWord) : (s.writeREC (v.setWidth 80)).readREC = v.setWidth 80 := by
  simp only [State.writeREC_readREC]
  congr 1
  exact BitVec.setWidth_setWidth_of_le v (by decide)

end Sys2Proof.Machine
end

