-- ==== Sys2Proof/Laws/Memory.lean ====
section
/-!
SUPPORT. The string buffer: reading after writing, and the canonical form, which every memory operation keeps.
-/

namespace Sys2Proof.Machine

/-! ### The list of cells that a write makes -/

/-- No cell below `a` is listed by `cellsFrom a`. -/
theorem lookup_cellsFrom_below (cs : List Byte) : ∀ (a i : Nat), i < a → (cellsFrom a cs).lookup i = none := by
  induction cs with
  | nil => intro a i _; rfl
  | cons c cs ih =>
    intro a i h
    unfold cellsFrom
    split
    · exact ih (a + 1) i (by omega)
    · rw [List.lookup_cons, beq_false_of_ne (by omega)]
      exact ih (a + 1) i (by omega)

/-- Reading after writing: cell `a + k` reads as character `k`. -/
theorem getD_lookup_cellsFrom (cs : List Byte) :
    ∀ (a k : Nat), ((cellsFrom a cs).lookup (a + k)).getD Config.unlistedByte = cs.getD k Config.unlistedByte := by
  induction cs with
  | nil => intro a k; simp [cellsFrom]
  | cons c cs ih =>
    intro a k
    unfold cellsFrom
    cases k with
    | zero =>
      split
      · rename_i h
        rw [lookup_cellsFrom_below cs (a + 1) (a + 0) (by omega)]
        simp [h]
      · simp
    | succ k =>
      have shift : a + (k + 1) = a + 1 + k := by omega
      split
      · rw [shift, ih (a + 1) k]; simp
      · rw [List.lookup_cons, beq_false_of_ne (by omega), shift, ih (a + 1) k]; simp

/-- The form holds from a lower index too. -/
theorem cellsWf_mono {m : Memory} {a b : Nat} (hab : b ≤ a) (h : cellsWf a m = true) : cellsWf b m = true := by
  cases m with
  | nil => rfl
  | cons x m =>
    simp only [cellsWf, Bool.and_eq_true, decide_eq_true_eq] at h ⊢
    exact ⟨⟨⟨by omega, h.1.1.2⟩, h.1.2⟩, h.2⟩

/-- The cells that a write makes are in the canonical form. -/
theorem cellsWf_cellsFrom (cs : List Byte) : ∀ a : Nat, a + cs.length ≤ 16 → cellsWf a (cellsFrom a cs) = true := by
  induction cs with
  | nil => intro a _; rfl
  | cons c cs ih =>
    intro a h
    simp only [List.length_cons] at h
    have rest := ih (a + 1) (by omega)
    unfold cellsFrom
    split
    · exact cellsWf_mono (by omega) rest
    · rename_i hc
      simp only [cellsWf, Bool.and_eq_true, decide_eq_true_eq]
      exact ⟨⟨⟨by omega, by omega⟩, hc⟩, rest⟩

/-! ### The operations -/

/-- A cell of the buffer that a whole write leaves. -/
@[simp] theorem Memory.cell_store (x : Chars) (i : Fin 16) : (Memory.store x).cell i = x[i] := by
  have h := getD_lookup_cellsFrom x.toList 0 i.val
  rw [Nat.zero_add] at h
  rw [Memory.cell, Memory.store, h]
  simp

/-- Reading the whole buffer after writing it gives what was written. -/
@[simp] theorem Memory.load_store (x : Chars) : (Memory.store x).load = x := by
  refine Vector.ext fun i hi => ?_
  simp [Memory.load]

/-- A whole write leaves the canonical form. -/
@[simp] theorem Memory.wf_store (x : Chars) : (Memory.store x).wf = true :=
  cellsWf_cellsFrom x.toList 0 (by simp)

/-- `MemWrite` leaves the canonical form. -/
theorem Memory.wf_memWrite (m : Memory) (a n : Nat) (v : Vector Byte n) (h : a + n ≤ 16) : (m.memWrite a n v h).wf = true :=
  Memory.wf_store _

/-- The empty list, the buffer after reset, is in the canonical form. -/
@[simp] theorem Memory.wf_nil : Memory.wf [] = true := rfl

/-- A character of the buffer read as a whole. -/
@[simp] theorem Memory.load_getElem (m : Memory) (i : Fin 16) : m.load[i] = m.cell i := by simp [Memory.load]

/-- Reading what `MemWrite` wrote gives it back. -/
theorem Memory.cell_memWrite_inside (m : Memory) (a n : Nat) (v : Vector Byte n) (h : a + n ≤ 16) (k : Fin n) :
    (m.memWrite a n v h).cell ⟨a + k.val, by omega⟩ = v[k] := by
  simp [Memory.memWrite]

/-- `MemWrite` leaves every other cell alone. -/
theorem Memory.cell_memWrite_outside (m : Memory) (a n : Nat) (v : Vector Byte n) (h : a + n ≤ 16) (i : Fin 16)
    (hi : i.val < a ∨ a + n ≤ i.val) : (m.memWrite a n v h).cell i = m.cell i := by
  have : ¬(a ≤ i.val ∧ i.val - a < n) := by omega
  simp [Memory.memWrite, this]

/-- Two canonical lists from index `a` up that read the same in every cell are equal. -/
theorem eq_of_cellsWf (m : Memory) : ∀ (n : Memory) (a : Nat), cellsWf a m = true → cellsWf a n = true →
    (∀ i : Fin 16, Memory.cell m i = Memory.cell n i) → m = n := by
  have below : ∀ (n : Memory) (a i : Nat), cellsWf a n = true → i < a → n.lookup i = none := by
    intro n
    induction n with
    | nil => intros; rfl
    | cons y n ih =>
      intro a i h hi
      simp only [cellsWf, Bool.and_eq_true, decide_eq_true_eq] at h
      rw [List.lookup_cons, beq_false_of_ne (by omega)]
      exact ih _ i h.2 (by omega)
  have head : ∀ (x : Host.Cell) (m : Memory) (a : Nat), cellsWf a (x :: m) = true →
      ∃ h : x.1 < 16, a ≤ x.1 ∧ Memory.cell (x :: m) ⟨x.1, h⟩ = x.2 ∧ x.2 ≠ Config.unlistedByte ∧ cellsWf (x.1 + 1) m = true := by
    intro x m a h
    simp only [cellsWf, Bool.and_eq_true, decide_eq_true_eq] at h
    exact ⟨h.1.1.2, h.1.1.1, by rw [Memory.cell, List.lookup_cons_self]; rfl, h.1.2, h.2⟩
  induction m with
  | nil =>
    intro n a _ hn heq
    cases n with
    | nil => rfl
    | cons y n =>
      obtain ⟨hy, _, hv, hne, _⟩ := head y n a hn
      exact absurd ((heq ⟨y.1, hy⟩).trans hv).symm hne
  | cons x m ih =>
    intro n a hm hn heq
    obtain ⟨hx, hax, hvx, hnex, hwx⟩ := head x m a hm
    cases n with
    | nil => exact absurd ((heq ⟨x.1, hx⟩).symm.trans hvx).symm hnex
    | cons y n =>
      obtain ⟨hy, hay, hvy, hney, hwy⟩ := head y n a hn
      have key : x.1 = y.1 := by
        rcases Nat.lt_trichotomy x.1 y.1 with hlt | heq' | hgt
        · have := (heq ⟨x.1, hx⟩).symm.trans hvx
          rw [Memory.cell, List.lookup_cons, beq_false_of_ne (show x.1 ≠ y.1 by omega)] at this
          rw [below n _ x.1 hwy (by omega)] at this
          exact absurd this.symm hnex
        · exact heq'
        · have := (heq ⟨y.1, hy⟩).trans hvy
          rw [Memory.cell, List.lookup_cons, beq_false_of_ne (show y.1 ≠ x.1 by omega)] at this
          rw [below m _ y.1 hwx (by omega)] at this
          exact absurd this.symm hney
      have val : x.2 = y.2 := by
        have e : (⟨x.1, hx⟩ : Fin 16) = ⟨y.1, hy⟩ := Fin.ext key
        rw [← hvx, heq, e, hvy]
      have tails : m = n := by
        refine ih n (x.1 + 1) hwx (key ▸ hwy) fun i => ?_
        by_cases hi : i.val ≤ x.1
        · rw [Memory.cell, Memory.cell, below m _ i.val hwx (by omega), below n _ i.val hwy (by omega)]
        · have := heq i
          rwa [Memory.cell, Memory.cell, List.lookup_cons, List.lookup_cons, beq_false_of_ne (show i.val ≠ x.1 by omega),
            beq_false_of_ne (show i.val ≠ y.1 by omega)] at this
      rw [tails, Prod.ext key val]

/-- Equal buffers are equal lists: two canonical buffers that read the same in every cell are equal. -/
theorem Memory.eq_of_wf {m n : Memory} (hm : m.wf = true) (hn : n.wf = true) (h : ∀ i : Fin 16, m.cell i = n.cell i) :
    m = n :=
  eq_of_cellsWf m n 0 hm hn h

end Sys2Proof.Machine
end

