-- ==== Sys2Proof/Laws/Ops.lean ====
section
/-!
SUPPORT. Once for each shared operation, everything it can do; what a command and a step can do.
-/

namespace Sys2Proof.Machine

variable {s t : State}

/-! ### Shared operations -/

/-- Writing the buffer and reading it back. -/
@[simp] theorem State.writeSB_readSB (s : State) (c : Chars) : (s.writeSB c).readSB = c := Memory.load_store c

/-- A cell of the buffer after a whole write. -/
@[simp] theorem State.writeSB_cell (s : State) (x : Chars) (i : Fin 16) : (s.writeSB x).sb.cell i = x[i] :=
  Memory.cell_store x i

/-- A character of `SB`. -/
@[simp] theorem State.readSB_getElem (s : State) (i : Fin 16) : s.readSB[i] = s.sb.cell i := Memory.load_getElem s.sb i

/-- `raise` changes `ST` and nothing else. -/
theorem State.raise_eq (s : State) (x : Status) : s.raise x = { s with st := x } := rfl

/-- A result changes `RES` and `ST` and nothing else. -/
theorem State.yieldResult_eq (s : State) (v : ResWord) : s.yieldResult v = { s with res := v, st := .ok } := rfl

/-- An accessor yields its projection of `REC`, or is refused for want of a record (44_accessors.md R200). -/
theorem State.project_cases (s : State) (f : RecWord → ResWord) :
    (s.rv = true ∧ s.project f = s.yieldResult (f s.readREC)) ∨ (s.rv = false ∧ s.project f = s.raise .badOperand) := by
  cases h : s.rv <;> simp [State.project, h]

/-- With a record an accessor yields its projection. -/
theorem State.project_of_record (f : RecWord → ResWord) (h : s.rv = true) : s.project f = s.yieldResult (f s.readREC) := by
  simp [State.project, h]

/-- With no record an accessor is refused. -/
theorem State.project_of_none (f : RecWord → ResWord) (h : s.rv = false) : s.project f = s.raise .badOperand := by
  simp [State.project, h]

/-! ### What a command can do -/

/-- D2L yields a letter or is refused. -/
theorem execD2l_cases (c : Byte) (s : State) :
    (∃ x, d2l c = some x ∧ execD2l c s = .next (s.yieldResult (x.setWidth 48))) ∨
    (d2l c = none ∧ execD2l c s = .next (s.raise .badOperand)) := by
  unfold execD2l
  cases d2l c with
  | some x => exact .inl ⟨x, rfl, rfl⟩
  | none => exact .inr ⟨rfl, rfl⟩

/-- EMASK yields the mask or is refused. -/
theorem execEmask_cases (s : State) :
    (s.slen = 16#8 ∧ execEmask s = .next (s.yieldResult ((emask s.readSB).setWidth 48))) ∨
    (s.slen ≠ 16#8 ∧ execEmask s = .next (s.raise .badOperand)) := by
  by_cases h : s.slen = 16#8 <;> simp [execEmask, h]

/-- PARSE stores a record or empties the register. -/
theorem execParse_cases (s : State) :
    (valid16 s.slen.toNat s.readSB = true ∧
      execParse s = .next (((s.writeREC ((parseOk Config.params s.readSB).setWidth 80)).writeRV true).writeST .ok)) ∨
    (valid16 s.slen.toNat s.readSB = false ∧
      execParse s = .next (((s.writeREC 0).writeRV false).writeST .invalidFormat)) := by
  cases h : valid16 s.slen.toNat s.readSB <;> simp [execParse, parse, h]

/-- FORMAT writes the string or is refused. -/
theorem execFormat_cases (s : State) :
    (s.rv = true ∧ wellFormedRecord s.readREC = true ∧
      execFormat s = .next (((s.writeSB (format s.readREC)).writeSLEN 16#8).writeST .ok)) ∨
    ((s.rv = false ∨ wellFormedRecord s.readREC = false) ∧ execFormat s = .next (s.raise .badOperand)) := by
  cases h : s.rv <;> cases w : wellFormedRecord s.readREC <;> simp [execFormat, h, w]

/-- GMUNI yields letter and digits or is refused. -/
theorem execGmuni_cases (s : State) :
    (s.rv = true ∧ (mnumField s.readREC).toNat ≤ 999 ∧
      execGmuni s = .next (s.yieldResult (municipalityString s.readREC))) ∨
    ((s.rv = false ∨ (mnumField s.readREC).toNat > 999) ∧ execGmuni s = .next (s.raise .badOperand)) := by
  cases h : s.rv with
  | false => simp [execGmuni, State.project, h]
  | true =>
    by_cases w : (mnumField s.readREC).toNat > 999
    · simp [execGmuni, h, w]
    · exact .inl ⟨rfl, by omega, by simp [execGmuni, State.project, h, w]⟩

/-! ### What a step can do -/

/-- A step that ends in a next state held the state, took a reset, ran a command, or refused an illegal word. -/
theorem step_cases (h : step s = .next t) :
    (s.inbox = [] ∧ t = s) ∨
    (∃ rest, s.inbox = .reset :: rest ∧ t = s.takeReset rest) ∨
    (∃ p rest i, s.inbox = .command p :: rest ∧ decode p.cw = .ok i ∧ exec i (s.accept p rest) = .next t) ∨
    (∃ p rest e, s.inbox = .command p :: rest ∧ decode p.cw = .error e ∧ t = (s.accept p rest).illegalCommand) := by
  unfold step at h
  split at h
  · rename_i hi
    exact .inl ⟨hi, by cases h; rfl⟩
  · rename_i p rest hi
    split at h
    · rename_i i hd
      exact .inr (.inr (.inl ⟨p, rest, i, hi, hd, h⟩))
    · rename_i e hd
      exact .inr (.inr (.inr ⟨p, rest, e, hi, hd, by cases h; rfl⟩))
  · rename_i rest hi
    exact .inr (.inl ⟨rest, hi, by cases h; rfl⟩)
  · cases h
  · cases h

end Sys2Proof.Machine
end

