-- ==== Sys2Proof/Laws/Frames.lean ====
section
/-!
SUPPORT. What the shared endings of a command keep, in the terms that claims use.
-/

namespace Sys2Proof.Machine

variable {s t : State}

/-- Every state keeps its own record. -/
@[simp] theorem SameRecord.refl (s : State) : SameRecord s s := ⟨rfl, rfl⟩

/-- Every state keeps its own string. -/
@[simp] theorem SameString.refl (s : State) : SameString s s := ⟨fun _ => rfl, rfl⟩

/-- Every state keeps its own host's side. -/
@[simp] theorem SameHost.refl (s : State) : SameHost s s := ⟨rfl, rfl⟩

/-- `raise` changes nothing but `ST` (60_exceptions.md R226). -/
theorem onlyStatus_raise (s : State) (x : Status) : OnlyStatus x s (s.raise x) :=
  ⟨rfl, rfl, ⟨rfl, rfl⟩, ⟨fun _ => rfl, rfl⟩, ⟨rfl, rfl⟩⟩

/-- A result changes nothing but `RES` and `ST` (10_state.md R28). -/
theorem onlyResult_yieldResult (s : State) (v : ResWord) : OnlyResult s (s.yieldResult v) :=
  ⟨rfl, ⟨rfl, rfl⟩, ⟨fun _ => rfl, rfl⟩, ⟨rfl, rfl⟩⟩

/-- Equal strings in every cell read as the same sixteen characters. -/
theorem readSB_eq_of_cells (h : ∀ a : Fin 16, s.sb.cell a = t.sb.cell a) : s.readSB = t.readSB := by
  refine Vector.ext fun i hi => ?_
  have := h ⟨i, hi⟩
  simpa [State.readSB, Memory.load] using this

/-- The precondition of `parse` on the registers, cell by cell (43_codec.md R160). -/
theorem valid16_readSB (s : State) : valid16 s.slen.toNat s.readSB = true ↔ HoldsValidString s := by
  have len : s.slen.toNat = 16 ↔ s.slen = 16#8 :=
    ⟨fun h => BitVec.eq_of_toNat_eq h, fun h => by rw [h]; rfl⟩
  have all : (∀ x ∈ s.readSB.toList, isalnum x = true) ↔ ∀ a : Fin 16, isalnum (s.sb.cell a) = true := by
    constructor
    · intro h a
      refine h _ ?_
      rw [← State.readSB_getElem, Vector.mem_toList_iff]
      exact Vector.getElem_mem _
    · intro h x hx
      rw [Vector.mem_toList_iff] at hx
      obtain ⟨i, hi, rfl⟩ := Vector.getElem_of_mem hx
      have := h ⟨i, hi⟩
      rwa [← State.readSB_getElem] at this
  simp only [valid16, Bool.and_eq_true, beq_iff_eq, List.all_eq_true, HoldsValidString, len, all]

end Sys2Proof.Machine
end

