-- ==== Sys2Proof/Laws/Lanes.lean ====
section
/-!
SUPPORT. The byte lanes of an append, and of a string on a port (spec/10_state.md R32); what a string literal puts on the ports
(spec/30_encoding.md R88).
-/

namespace Sys2Proof.Machine

/-- The lowest byte of an append is its right part. -/
theorem lane_append_zero {w : Nat} (a : BitVec w) (b : Byte) : lane (a ++ b) 0 = b := by
  rw [lane, BitVec.extractLsb'_append_eq_of_add_le (by decide)]
  simp

/-- A higher byte of an append is a byte of its left part. -/
theorem lane_append_succ {w : Nat} (a : BitVec w) (b : Byte) (k : Nat) : lane (a ++ b) (k + 1) = lane a k := by
  rw [lane, lane, BitVec.extractLsb'_append_eq_of_le (by omega)]
  congr 1

/-- A byte has one lane. -/
theorem lane_byte (a : Byte) : lane a 0 = a := by simp [lane]

/-- Lane i of a string port is the character at index i. -/
theorem lane_wordOfChars (x : Chars) (i : Fin 16) : lane (wordOfChars x) i = x[i] := by
  unfold wordOfChars
  fin_cases i
  all_goals
    repeat first
      | exact lane_append_zero _ _
      | exact lane_byte _
      | refine (lane_append_succ _ _ _).trans ?_

/-- A string put on a port and taken off it is the same string. -/
theorem charsOfWord_wordOfChars (x : Chars) : charsOfWord (wordOfChars x) = x := by
  refine Vector.ext fun i hi => ?_
  simpa [charsOfWord] using lane_wordOfChars x ⟨i, hi⟩

/-- What the block samples from the `SIN` of a literal: its characters at their index, 0x00 in the lanes above
(30_encoding.md R88). -/
theorem charsOfWord_sinOfString_getElem (l : List Byte) (i : Fin 16) :
    (charsOfWord (sinOfString l))[i] = if h : i.val < l.length then l[i.val] else 0x00#8 := by
  rw [sinOfString, charsOfWord_wordOfChars]
  by_cases h : i.val < l.length <;> simp [h]

/-- What the block samples from the `SIN` of a literal of sixteen characters: those characters (30_encoding.md R88). -/
theorem charsOfWord_sinOfString_toList (c : Chars) : charsOfWord (sinOfString c.toList) = c := by
  refine Vector.ext fun i hi => ?_
  simpa [hi] using charsOfWord_sinOfString_getElem c.toList ⟨i, hi⟩

/-- The length a literal declares saturates at 255 (10_state.md R31; 30_encoding.md R88). -/
theorem linOfString_toNat (l : List Byte) : (linOfString l).toNat = min l.length 255 := by
  simp only [linOfString, BitVec.toNat_ofNat]
  omega

end Sys2Proof.Machine
end

