-- ==== Sys2Proof/Laws/PerInstr.lean ====
section
/-!
SUPPORT. The family of statements made once per command: the encoder's word selects the command's row of the opcode map
(spec/30_encoding.md R83), and the row has the command's format.
-/

namespace Sys2Proof.Laws

/-- The encoder's word agrees with the row of the opcode map, and the command is well formed. -/
def EncodedInRow.Statement (i : Instr) : Prop := encode i &&& i.row.mask = i.row.pattern ∧ i.wellFormed = true

/-- The high byte of a command word is its opcode, whatever the immediate is. -/
theorem commandWord_and_mask (op c : Byte) : commandWord op c &&& 0xFF00#16 = commandWord op 0x00#8 := by
  have mask : (0xFF00#16) = BitVec.allOnes 8 ++ 0x00#8 := by decide
  rw [commandWord, commandWord, mask, BitVec.and_append, BitVec.and_allOnes, BitVec.and_zero]

theorem EncodedInRow.nop : EncodedInRow.Statement .nop := ⟨by decide, rfl⟩
theorem EncodedInRow.ldstr : EncodedInRow.Statement .ldstr := ⟨by decide, rfl⟩
theorem EncodedInRow.ldraw : EncodedInRow.Statement .ldraw := ⟨by decide, rfl⟩
theorem EncodedInRow.l2i (c : Byte) : EncodedInRow.Statement (.l2i c) := ⟨commandWord_and_mask _ c, rfl⟩
theorem EncodedInRow.i2l (n : Byte) : EncodedInRow.Statement (.i2l n) := ⟨commandWord_and_mask _ n, rfl⟩
theorem EncodedInRow.l2m (c : Byte) : EncodedInRow.Statement (.l2m c) := ⟨commandWord_and_mask _ c, rfl⟩
theorem EncodedInRow.m2l (n : Byte) : EncodedInRow.Statement (.m2l n) := ⟨commandWord_and_mask _ n, rfl⟩
theorem EncodedInRow.d2l (c : Byte) : EncodedInRow.Statement (.d2l c) := ⟨commandWord_and_mask _ c, rfl⟩
theorem EncodedInRow.l2d (c : Byte) : EncodedInRow.Statement (.l2d c) := ⟨commandWord_and_mask _ c, rfl⟩
theorem EncodedInRow.emask : EncodedInRow.Statement .emask := ⟨by decide, rfl⟩
theorem EncodedInRow.parse : EncodedInRow.Statement .parse := ⟨by decide, rfl⟩
theorem EncodedInRow.format : EncodedInRow.Statement .format := ⟨by decide, rfl⟩
theorem EncodedInRow.gname : EncodedInRow.Statement .gname := ⟨by decide, rfl⟩
theorem EncodedInRow.gyear : EncodedInRow.Statement .gyear := ⟨by decide, rfl⟩
theorem EncodedInRow.gmonth : EncodedInRow.Statement .gmonth := ⟨by decide, rfl⟩
theorem EncodedInRow.gday : EncodedInRow.Statement .gday := ⟨by decide, rfl⟩
theorem EncodedInRow.ggen : EncodedInRow.Statement .ggen := ⟨by decide, rfl⟩
theorem EncodedInRow.gmuni : EncodedInRow.Statement .gmuni := ⟨by decide, rfl⟩
theorem EncodedInRow.gchk : EncodedInRow.Statement .gchk := ⟨by decide, rfl⟩

end Sys2Proof.Laws
end

