-- ==== Sys2Proof/Tests/Slice0.lean ====
section
/-!
SUPPORT. Tests against the encodings and the vectors of the spec (30_encoding.md R83, 95_test_vectors.md), the smoke tests
of the well-formedness checks, and a witness for the hypotheses of each statement that has some.
-/

namespace Sys2Proof.Tests

open Sys2Proof Sys2Proof.Machine

/-! ### Helpers -/

/-- The codes of a sixteen-character ASCII text. -/
def chars (t : String) : Chars := Vector.ofFn fun i => BitVec.ofNat 8 ((t.toList.getD i.val ' ').toNat)

/-- The reset state with a loaded string. -/
def loaded (t : String) (len : Byte) : State := (State.reset.writeSB (chars t)).writeSLEN len

/-- The reset state holding a record. -/
def held (r : RecWord) : State := (State.reset.writeREC r).writeRV true

/-- The reset state to which the host presents `e`, then nothing. -/
def facing (e : HostEvent) : State := { State.reset with inbox := [e] }

/-- Idle ports but for the command word. -/
def word (w : CmdWord) : Ports := { Ports.idle with cw := w }

/-- The next state of an outcome. -/
def after : Host.Outcome State Fault Refusal → Option State
  | .next t    => some t
  | .fault _   => none
  | .refused _ => none

/-! ### Well-formedness: a term that each check refuses (30_encoding.md R84) -/

theorem test_wellFormed_refuses_undefined_opcode : (RawCommand.mk 0x47 0x00).knownOpcode = false := by decide
theorem test_wellFormed_refuses_nonzero_reserved : (RawCommand.mk 0x30 0x01).reservedIsZero = false := by decide
theorem test_legal_refuses_both :
    (RawCommand.mk 0x47 0x00).legal = false ∧ (RawCommand.mk 0x30 0x01).legal = false := by decide
theorem test_legal_accepts : (RawCommand.mk 0x30 0x00).legal = true ∧ (RawCommand.mk 0x10 0xFF).legal = true := by decide
theorem test_every_row_wellFormed : (Instr.oneOfEach.all Instr.wellFormed) = true := by decide

/-! ### Decoding: words written out from 30_encoding.md R83 -/

theorem test_decode_nop : decode 0b0000000000000000 = .ok .nop := by decide
theorem test_decode_ldstr : decode 0b0000000100000000 = .ok .ldstr := by decide
theorem test_decode_ldraw : decode 0b0000001000000000 = .ok .ldraw := by decide
theorem test_decode_l2i : decode 0b0001000001010010 = .ok (.l2i 0x52) := by decide
theorem test_decode_i2l : decode 0b0001000100010001 = .ok (.i2l 17) := by decide
theorem test_decode_l2m : decode 0b0001001001001000 = .ok (.l2m 0x48) := by decide
theorem test_decode_m2l : decode 0b0001001100000110 = .ok (.m2l 6) := by decide
theorem test_decode_d2l : decode 0b0010000000110011 = .ok (.d2l 0x33) := by decide
theorem test_decode_l2d : decode 0b0010000101010000 = .ok (.l2d 0x50) := by decide
theorem test_decode_emask : decode 0b0010001000000000 = .ok .emask := by decide
theorem test_decode_parse : decode 0b0011000000000000 = .ok .parse := by decide
theorem test_decode_format : decode 0b0011000100000000 = .ok .format := by decide
theorem test_decode_gname : decode 0b0100000000000000 = .ok .gname := by decide
theorem test_decode_gyear : decode 0b0100000100000000 = .ok .gyear := by decide
theorem test_decode_gmonth : decode 0b0100001000000000 = .ok .gmonth := by decide
theorem test_decode_gday : decode 0b0100001100000000 = .ok .gday := by decide
theorem test_decode_ggen : decode 0b0100010000000000 = .ok .ggen := by decide
theorem test_decode_gmuni : decode 0b0100010100000000 = .ok .gmuni := by decide
theorem test_decode_gchk : decode 0b0100011000000000 = .ok .gchk := by decide
theorem test_decode_illegal_words :
    ([0x0001, 0x0300, 0x1400, 0x2201, 0x2300, 0x3200, 0x4700, 0x5000, 0xFFFF].all fun w =>
      (decode (BitVec.ofNat 16 w)).toOption.isNone) = true := by decide
theorem test_decodeTableWord : decodeTableWord 16 0x1052 = some (.l2i 0x52) ∧ decodeTableWord 16 0x3001 = none := by decide

/-! ### One command: vectors of 95_test_vectors.md sections 2.1 to 2.6 -/

theorem test_nop_keeps_status :
    (after (exec .nop { State.reset with st := .invalidFormat })).map State.st = some .invalidFormat := by decide

theorem test_ldstr_stores_lanes_beyond_the_length :
    (after (exec .ldstr { State.reset with
        ports := { word 0x0100 with sin := 0x0031303548313041303841524D535352, lin := 15 } })).map
      (fun t => (t.sb.cell 0, t.sb.cell 14, t.sb.cell 15, t.slen)) = some (0x52, 0x31, 0x00, 15) := by decide

theorem test_ldraw_drops_padding :
    (after (exec .ldraw { State.reset with ports := { word 0x0200 with din := 0xFC04652644140433BEB4 } })).map
      (fun t => (t.readREC, t.rv)) = some (0x0004652644140433BEB4, true) := by decide

theorem test_l2i_edges :
    ([0x41, 0x5A, 0x61, 0x7A, 0x72, 0x30, 0x40, 0x5B, 0x60, 0x7B, 0xC1].map fun c => (l2i (BitVec.ofNat 8 c)).toNat)
      = [0, 25, 0, 25, 17, 0, 0, 0, 0, 0, 0] := by decide
theorem test_l2i_result : (after (exec (.l2i 0x52) State.reset)).map State.res = some 17 := by decide

theorem test_i2l_edges : ([0, 17, 25, 26, 31, 255].map i2l) = [0x41, 0x52, 0x5A, 0x61, 0x61, 0x61] := by decide
theorem test_i2l_result : (after (exec (.i2l 26) State.reset)).map State.res = some 0x61 := by decide

theorem test_l2m_edges :
    ([0x45, 0x46, 0x47, 0x48, 0x68, 0x54, 0x74, 0x31].map fun c => (l2m (BitVec.ofNat 8 c)).toNat)
      = [5, 0, 0, 6, 6, 12, 12, 0] := by decide
theorem test_l2m_result : (after (exec (.l2m 0x48) State.reset)).map State.res = some 6 := by decide

theorem test_m2l_edges : ([0, 1, 6, 12, 13, 16].map m2l) = [0x00, 0x41, 0x48, 0x54, 0x00, 0x00] := by decide
theorem test_m2l_result : (after (exec (.m2l 6) State.reset)).map State.res = some 0x48 := by decide

theorem test_d2l_result : (after (exec (.d2l 0x33) State.reset)).map State.res = some 0x50 := by decide
theorem test_d2l_refuses :
    (after (exec (.d2l 0x3A) { State.reset with res := 7 })).map (fun t => (t.res, t.st)) = some (7, .badOperand) := by
  decide

theorem test_l2d_edges :
    ([0x50, 0x70, 0x4C, 0x56, 0x41, 0x33].map fun c => l2d (BitVec.ofNat 8 c)) = [0x33, 0x33, 0x30, 0x39, 0x00, 0x00] := by
  decide
theorem test_l2d_result : (after (exec (.l2d 0x70) State.reset)).map State.res = some 0x33 := by decide

theorem test_emask_one_letter :
    (after (exec .emask (loaded "RSSMRA80AP1H501U" 16))).map State.res = some 0x10 := by decide
theorem test_emask_refuses_length :
    (after (exec .emask (loaded "RSSMRA80AP1H501U" 17))).map State.st = some .badOperand := by decide

theorem test_parse_omocodia :
    (after (exec .parse (loaded "RSSMRA80AP1H501U" 16))).map (fun t => (t.readREC, t.rv))
      = some (0x00846526441407F3BEB4, true) := by decide
theorem test_parse_rejects_punctuation :
    (after (exec .parse { loaded "RSSMRA80A01H50-U" 16 with rv := true, recBits := 5 })).map
      (fun t => (t.readREC, t.rv, t.st)) = some (0, false, .invalidFormat) := by decide

theorem test_format_omocodia :
    (after (exec .format (held 0x00846526441407F3BEB4))).map State.readSB = some (chars "RSSMRA80AP1H501U") := by decide
theorem test_format_refuses_year_100 :
    (after (exec .format (held 0x00000000001904000000))).map State.st = some .badOperand := by decide

theorem test_gname : (after (exec .gname (held 0x00005A25C415714299B7))).map State.res = some 0x41524C434E42 := by decide
theorem test_gyear_raw : (after (exec .gyear (held 0x03FFFFFFFFFFFFFFFFFF))).map State.res = some 127 := by decide
theorem test_gmonth : (after (exec .gmonth (held 0x00005A25C415714299B7))).map State.res = some 12 := by decide
theorem test_gday_female : (after (exec .gday (held 0x00005A25C415714299B7))).map State.res = some 10 := by decide
theorem test_ggen_female : (after (exec .ggen (held 0x0004652644140423BEB4))).map State.res = some 0 := by decide
theorem test_gmuni : (after (exec .gmuni (held 0x03FC652644140433BEB4))).map State.res = some 0x31303548 := by decide
theorem test_gmuni_refuses_1000 :
    (after (exec .gmuni (held 0x00000000000004107D00))).map State.st = some .badOperand := by decide
theorem test_gchk : (after (exec .gchk (held 0x02A800000001D93D0559))).map State.res = some 0x5A := by decide
theorem test_gchk_refuses_no_record : (after (exec .gchk State.reset)).map State.st = some .badOperand := by decide

/-! ### The codec on more vectors (95_test_vectors.md 2.4, 2.5) -/

theorem test_parse_unmappable_letter : parseOk Config.params (chars "RSSMRA8AA01H501U") = 0x0104652644000433BEB4 := by decide
theorem test_parse_day_99 : parseOk Config.params (chars "RSSMRA80A99H501U") = 0x0004652644140763BEB4 := by decide
theorem test_parse_char_zero_keeps_the_other_digit :
    parseYear .charZero (chars "RSSMRA8AA01H501U") = 80 ∧ parseYear .fieldZero (chars "RSSMRA8AA01H501U") = 0 := by decide
theorem test_format_sentinels :
    (format 0x03FFFFFFFFF8FFEFFCFF)[0] = 0x61 ∧ (format 0x03FFFFFFFFF8FFEFFCFF)[8] = 0x00 ∧
    (format 0x03FFFFFFFFF8FFEFFCFF)[9] = 0x54 := by decide
theorem test_record_image :
    (recordImage 0x0004652644140433BEB4).toList = [0xB4, 0xBE, 0x33, 0x04, 0x14, 0x44, 0x26, 0x65, 0x04, 0x00] := by decide

/-! ### One step -/

theorem test_step_illegal_word :
    (after (step (facing (.command (word 0x3001))))).map State.st = some .illegalCommand := by decide
theorem test_step_withFetchWord :
    (after (step (State.reset.withFetchWord 16 0x1052))).map (fun t => (t.res, t.inbox)) = some (17, []) := by decide
theorem test_outputs_show_the_string :
    (loaded "RSSMRA80A01H501U" 16).outputs.sout = 0x5531303548313041303841524D535352 := by decide

theorem test_status_codes :
    [Status.ok, .invalidFormat, .illegalCommand, .badOperand].map Status.code = [0b00, 0b01, 0b10, 0b11] := by decide

/-! ### The assembler (30_encoding.md R88, R89; 95_test_vectors.md P1, P3) -/

theorem test_assemble_ldstr :
    (readLine "LDSTR \"RSSMRA80A01H501U\"".toList).map (fun ls => ls.flatMap AsmLine.assemble)
      = some [{ cw := 0x0100, din := 0, sin := 0x5531303548313041303841524D535352, lin := 0x10 }] := by decide
theorem test_assemble_ldraw :
    (readLine "LDRAW 0xFC04652644140433BEB4 ; raw".toList).map (fun ls => ls.flatMap AsmLine.assemble)
      = some [{ cw := 0x0200, din := 0xFC04652644140433BEB4, sin := 0, lin := 0 }] := by decide
theorem test_assemble_character_and_pseudo :
    readLine "L2D 'p'".toList = some [.plain (.l2d 0x70)] ∧
    ((readLine "PARSESTR \"A\"".toList).map fun ls => (ls.flatMap AsmLine.assemble).map Ports.cw) = some [0x0100, 0x3000] ∧
    readLine "I2L 256".toList = none := by decide

theorem test_lin_saturates :
    linOfString (List.replicate 254 0x41) = 0xFE ∧ linOfString (List.replicate 272 0x41) = 0xFF := by decide +kernel
theorem test_string_escape :
    readLine "PARSESTR \"A\\x2dB\"".toList = some [.parsestr [0x41, 0x2D, 0x42]] ∧
    readLine "PARSESTR \"A\\n\"".toList = none := by decide

/-! ### Witnesses: for each statement with hypotheses, a state and operands that meet them -/

theorem witness_DecodeOfEncodeIsIdentity : (Instr.l2i 0xFF).wellFormed = true := by decide

theorem witness_EncodeOfDecodeIsIdentity : decode 0x11FF = .ok (.i2l 0xFF) := by decide

theorem witness_DecodeSelectsTheOpcodeRow :
    (∃ a ∈ opTable, (0x4600#16) &&& a.mask = a.pattern) ∧ decode 0x4600 = .ok .gchk :=
  ⟨⟨Instr.gchk.row, by decide, by decide⟩, by decide⟩

theorem witness_IllegalWordsAreExactlyTheseAndRefused :
    (facing (.command (word 0x0300))).inbox = .command (word 0x0300) :: [] ∧
    decode (word 0x0300).cw = .error (.undefinedOpcode 0x03) := by decide

theorem witness_StepRunsTheDecodedCommand :
    (facing (.command (word 0x3000))).inbox = .command (word 0x3000) :: [] ∧ decode (word 0x3000).cw = .ok .parse ∧
    Instr.parse.wellFormed = true := by decide

theorem witness_IllegalWordChangesOnlyStatus :
    (facing (.command (word 0x2201))).inbox = .command (word 0x2201) :: [] ∧
    decode (word 0x2201).cw = .error (.reservedNotZero 0x22 0x01) := by decide

theorem witness_EveryPresentedWordCompletes :
    (facing (.command (word 0xFFFF))).inbox = .command (word 0xFFFF) :: [] := rfl

theorem witness_ResetSetsEveryRegister : (facing .reset).inbox = .reset :: [] := rfl

theorem witness_FirstCommandAfterReset :
    (0x30 ≤ (0x30#8).toNat ∧ (0x39#8).toNat ≤ 0x39) ∧ ¬(0x30 ≤ (0x2F#8).toNat) ∧ ¬((0x3A#8).toNat ≤ 0x39) := by decide

theorem witness_StepsWithNoCommandPresented :
    State.reset.inbox = [] ∧ (facing .portConflict).inbox = .portConflict :: [] ∧
    (facing .resetDuringCommand).inbox = .resetDuringCommand :: [] := by decide

theorem witness_WellBehavedHostNeverMeetsAStop :
    HostWellBehaved { State.reset with inbox := [.command (word 0x3001), .reset] } := by
  unfold HostWellBehaved; decide

theorem witness_LaterCommandsAreNotSeen :
    ∃ t, Sys2Proof.core.run [HostEvent.command (word 0x1052)].length
      { State.reset with inbox := [.command (word 0x1052)] } = .next t := ⟨_, rfl⟩

theorem witness_EveryStepKeepsTheInvariant :
    Inv (facing (.command (word 0x3000))) ∧ ∃ t, step (facing (.command (word 0x3000))) = .next t :=
  ⟨⟨by decide, by decide⟩, ⟨_, rfl⟩⟩

theorem witness_CommandsWriteOnlyTheirRegisters :
    (∃ t, exec .gname (held 1) = .next t) ∧ Register.SB ∉ writes .gname := ⟨⟨_, rfl⟩, by decide⟩

theorem witness_CommandsDependOnlyOnWhatTheyRead :
    (∀ r ∈ reads .gyear, AgreeOn (held 1) { held 1 with res := 9 } r) ∧
    AgreeOnPayload (held 1).ports (held 1).ports .gyear ∧
    (∃ t t', exec .gyear (held 1) = .next t ∧ exec .gyear { held 1 with res := 9 } = .next t' ∧ t.st ≠ .badOperand) := by
  refine ⟨?_, trivial, _, _, rfl, rfl, by decide⟩
  intro r hr
  simp only [reads, List.mem_cons, List.not_mem_nil, or_false] at hr
  rcases hr with rfl | rfl <;> exact rfl

theorem witness_RepeatingACommandChangesNothing : ∃ t, exec (.d2l 0x39) State.reset = .next t := ⟨_, rfl⟩

theorem witness_BadOperandHasExactlyTheseCauses :
    BadOperandCause State.reset .gday ∧ BadOperandCause (held 0x00000000001904000000) .format ∧
    BadOperandCause (held 0x00000000000004107D00) .gmuni ∧ BadOperandCause (loaded "RSSMRA80A01H501U" 15) .emask ∧
    BadOperandCause State.reset (.d2l 0x3A) ∧
    ¬BadOperandCause (held 0x000000000018C4100000) .format ∧ ¬BadOperandCause (held 0x00000000000004107CE0) .gmuni ∧
    ¬BadOperandCause (loaded "RSSMRA80A01H501U" 16) .emask ∧ ¬BadOperandCause State.reset (.d2l 0x39) ∧
    ¬BadOperandCause (held 1) .gday := by
  simp only [BadOperandCause]; decide

theorem witness_InvalidFormatOnlyFromParse : ∃ t, exec .parse State.reset = .next t ∧ t.st = .invalidFormat :=
  ⟨_, rfl, by decide⟩

theorem witness_RecordChangesOnlyByParseLdrawOrReset :
    ∃ t, step (facing (.command { word 0x0200 with din := 1 })) = .next t ∧
      ¬SameRecord (facing (.command { word 0x0200 with din := 1 })) t :=
  ⟨_, rfl, fun h => by have := h.2; revert this; decide⟩

theorem witness_NopChangesNothing : (0x01#8) ≠ 0 := by decide

theorem witness_L2mYieldsTheMonth :
    ((0x54#8) = 0x54) ∧ ((0x61#8) = 0x41 + 0x20) ∧
    (∀ m ∈ ([0x41, 0x42, 0x43, 0x44, 0x45, 0x48, 0x4C, 0x4D, 0x50, 0x52, 0x53, 0x54] : List Byte),
      (0x46#8) ≠ m ∧ (0x46#8) ≠ m + 0x20) := by decide

theorem witness_AlphabetTableLaws :
    upper 0x74#8 = 0x54#8 ∧ isalpha 0x7A#8 = true ∧ isalpha 0x7B#8 = false := by decide

theorem witness_D2lYieldsTheSubstitutionLetter :
    (0x30#8).toNat = 0x30 + (0 : Fin 10).val ∧ (0x39#8).toNat = 0x30 + (9 : Fin 10).val ∧
    ¬(0x30 ≤ (0x2F#8).toNat ∧ (0x2F#8).toNat ≤ 0x39) := by decide

theorem witness_L2dYieldsTheDigitCharacter :
    (0x76#8) = 0x56#8 + 0x20 ∧
    (∀ m ∈ ([0x4C, 0x4D, 0x4E, 0x50, 0x51, 0x52, 0x53, 0x54, 0x55, 0x56] : List Byte),
      (0x4F#8) ≠ m ∧ (0x4F#8) ≠ m + 0x20) := by decide

theorem witness_SubstitutionTableLaws : isdigit 0x39#8 = true ∧ upper 0x76#8 = 0x56#8 ∧ d2l 0x39 = some 0x56 := by decide

theorem witness_EmaskYieldsTheMask :
    (loaded "RSSMRA80A01H501U" 16).slen = 16#8 ∧ (loaded "RSSMRA80A01H501U" 15).slen ≠ 16#8 := by decide

theorem witness_MaskDependsOnlyOnEligiblePositions :
    (∀ p ∈ eligiblePositions, isalpha (chars "AAAAAA00A00A000A")[p] = isalpha (chars "zzzzzz99z99z999z")[p]) ∧
    (∀ p ∈ eligiblePositions, isdigit (chars "AAAAAA00A00A000A")[p] = true) ∧
    (∀ p ∈ eligiblePositions, isalpha (chars "000000aa0aa0aaa0")[p] = true) ∧
    wellFormedRecord 0x02A800000001D93D0559 = true := by decide

theorem witness_ParseStoresTheRecordOrEmptiesIt :
    HoldsValidString (loaded "RSSMRA80A40H501U" 16) ∧ ¬HoldsValidString (loaded "RSSMRA80A40H501U" 15) ∧
    ¬HoldsValidString (loaded "RSSMRA80A40H50-U" 16) := by
  unfold HoldsValidString; decide

theorem witness_NumericFieldsReadDigitsAndSubstitutionLetters :
    (chars "RSSMRA8LAp1HR0mU")[6] = chr 8 ∧ (chars "RSSMRA8LAp1HR0mU")[7] = substitutionLetter 0 ∧
    (chars "RSSMRA8LAp1HR0mU")[9] = substitutionLetter 3 + 0x20#8 ∧ (chars "RSSMRA8LAp1HR0mU")[10] = chr 1 ∧
    (chars "RSSMRA8LAp1HR0mU")[12] = substitutionLetter 5 ∧ (chars "RSSMRA8LAp1HR0mU")[13] = chr 0 ∧
    (chars "RSSMRA8LAp1HR0mU")[14] = substitutionLetter 1 + 0x20#8 ∧
    (∀ d : Fin 10, ¬((0x41#8) = chr d ∨ (0x41#8) = substitutionLetter d ∨ (0x41#8) = substitutionLetter d + 0x20#8)) := by
  decide

theorem witness_DayAndGenderOfAParsedString :
    HoldsValidString (loaded "RSSMRA80A39H501U" 16) ∧
    dayGenderValue .fieldZero (loaded "RSSMRA80A39H501U" 16).readSB = 39 ∧
    HoldsValidString (loaded "RSSMRA80A40H501U" 16) ∧
    dayGenderValue .fieldZero (loaded "RSSMRA80A40H501U" 16).readSB = 40 := by
  unfold HoldsValidString; decide

theorem witness_ParsedRecordsAreInRange :
    valid16 16 (chars "RSSMRA80F99H501U") = true ∧
    (held ((parseOk Config.params (chars "RSSMRA80F99H501U")).setWidth 80)).rv = true ∧
    (held ((parseOk Config.params (chars "RSSMRA80F99H501U")).setWidth 80)).readREC
      = (parseOk Config.params (chars "RSSMRA80F99H501U")).setWidth 80 := by decide

theorem witness_FormatWritesTheString :
    ((held 0x000000000018C4100000).rv = true ∧ (yearField (held 0x000000000018C4100000).readREC).toNat = 99) ∧
    (mnumField (held 0x00000000000004107CE0).readREC).toNat = 999 ∧
    (yearField (held 0x00000000001904000000).readREC).toNat = 100 ∧
    (mnumField (held 0x00000000000004107D00).readREC).toNat = 1000 ∧ State.reset.rv = false := by decide

theorem witness_FormatRendersEachField : wellFormedRecord 0x03FFFFFFFFF8FFEFFCFF = true := by decide

theorem witness_FormatShowsSentinels :
    wellFormedRecord 0x03FFFFFFFFF8FFEFFCFF = true ∧ 25 < (nameGroup 0x03FFFFFFFFF8FFEFFCFF 5).toNat ∧
    (mletField 0x000000000000043D0000).toNat = 26 ∧ wellFormedRecord 0x000000000000043D0000 = true ∧
    25 < (chkField 0x1F).toNat ∧ (monField 0x00000000000034300000).toNat = 13 ∧
    (monField 0x00000000000000300000).toNat = 0 ∧ (dayField 0x00000000000000100000).toNat = 0 ∧
    (0x00000000000000100000#80).getLsbD 71 = false ∧ (0x00000000000000100000#80).getLsbD 70 = false := by decide

theorem witness_ParseInvertsFormatOnCanonicalRecords :
    canonical 0x0006739CE738F3ECFCF9 = true ∧ canonical 0x03FE739CE738F3ECFCF9 = true := by decide

theorem witness_ParseFormatParseIsParse :
    parse Config.params 16 (chars "RSSMRA80A35H501U") = .ok 0x0004652644140473BEB4 ∧ l2m (chars "RSSMRA80A35H501U")[8] ≠ 0 ∧
    parse Config.params 16 (chars "RSSMRA80F01H501U") = .ok 0x0004652644140033BEB4 ∧
    l2m (chars "RSSMRA80F01H501U")[8] = 0 := by decide

theorem witness_DayNormalisation :
    genField 0x00046526441407E3BEB4 = (splitDayGender 71).2 ∧
    dayField 0x00046526441407E3BEB4 = storedDay .truncate (splitDayGender 71).1 ∧
    genField 0x0004652644140413BEB4 = (splitDayGender 32).2 ∧
    dayField 0x0004652644140413BEB4 = storedDay .truncate (splitDayGender 32).1 := by decide

theorem witness_FormatReproducesTheStringExactlyWhen :
    valid16 16 (chars "rssmra80ap1h501u") = true ∧
    (Vector.ofFn fun i => upper (chars "rssmra80ap1h501u")[i]) = chars "RSSMRA80AP1H501U" ∧
    (∀ i : Fin 16, islower (chars "RSSMRA80AP1H501U")[i] = false) ∧
    (∀ i ∈ ([0, 1, 2, 3, 4, 5, 11, 15] : List (Fin 16)), isalpha (chars "RSSMRA80AP1H501U")[i] = true) ∧
    (chars "RSSMRA80AP1H501U")[8] = 0x41#8 ∧
    (∀ i ∈ eligiblePositions, isdigit (chars "RSSMRA80AP1H501U")[i] = true ∨ (chars "RSSMRA80AP1H501U")[i] = 0x50#8) ∧
    dayGenderValue .fieldZero (chars "RSSMRA80AP1H501U") = 31 := by decide +kernel

theorem witness_FormatThenParseKeepsTheRecord :
    (held 0x00846526441407F3BEB4).rv = true ∧ canonical (held 0x00846526441407F3BEB4).readREC = true := by decide

theorem witness_ParsestrIsParse :
    parse Config.params 16 (chars "RSSMRA80A01H501U") = .ok 0x0004652644140433BEB4 ∧
    parse Config.params 16 (chars "RSSMRA80A01H50-U") = .error .invalidFormat ∧
    (List.replicate 272 0x41#8).length ≠ 16 ∧ (List.replicate 15 0x41#8).length ≠ 16 ∧ ([] : List Byte).length ≠ 16 ∧
    ((yearField 0x000000000018C0007CE0).toNat = 99 ∧ (mnumField 0x000000000018C0007CE0).toNat = 999) ∧
    (yearField 0x00000000001904000000).toNat = 100 ∧ (mnumField 0x00000000000004107D00).toNat = 1000 := by decide +kernel

theorem witness_GnameYieldsTheNameLetters : (held 0x03FFFFFFFFFFFFFFFFFF).rv = true ∧ State.reset.rv = false := by decide
theorem witness_GyearYieldsTheYear : (held 0x03FFFFFFFFFFFFFFFFFF).rv = true ∧ State.reset.rv = false := by decide
theorem witness_GmonthYieldsTheMonth : (held 0x03FFFFFFFFFFFFFFFFFF).rv = true ∧ State.reset.rv = false := by decide
theorem witness_GdayYieldsTheDay : (held 0x03FFFFFFFFFFFFFFFFFF).rv = true ∧ State.reset.rv = false := by decide
theorem witness_GgenYieldsTheGenderBit : (held 0x03FFFFFFFFFFFFFFFFFF).rv = true ∧ State.reset.rv = false := by decide
theorem witness_GchkYieldsTheCheckLetter : (held 0x03FFFFFFFFFFFFFFFFFF).rv = true ∧ State.reset.rv = false := by decide

theorem witness_GmuniYieldsLetterAndThreeDigits :
    (held 0x00000000000004107CE0).rv = true ∧ (mnumField (held 0x00000000000004107CE0).readREC).toNat = 999 ∧
    (mnumField (held 0x00000000000004107D00).readREC).toNat = 1000 ∧ State.reset.rv = false := by decide

end Sys2Proof.Tests
end

/-!
The character classes, the decimal numbers and the mask bits, each said once, and the two statements of the scope family
that rest on them (00_scope.md R9, R10; 42_omocodia.md R143; 43_codec.md R162 to R169).
-/

namespace Sys2Proof.Machine

/-! ### Character classes (00_scope.md R9) -/

theorem isdigit_iff (c : Byte) : isdigit c = true ↔ 0x30 ≤ c.toNat ∧ c.toNat ≤ 0x39 := by
  simp [isdigit, BitVec.le_def]

theorem isupper_iff (c : Byte) : isupper c = true ↔ 0x41 ≤ c.toNat ∧ c.toNat ≤ 0x5A := by
  simp [isupper, BitVec.le_def]

theorem islower_iff (c : Byte) : islower c = true ↔ 0x61 ≤ c.toNat ∧ c.toNat ≤ 0x7A := by
  simp [islower, BitVec.le_def]

theorem isalpha_iff (c : Byte) :
    isalpha c = true ↔ (0x41 ≤ c.toNat ∧ c.toNat ≤ 0x5A) ∨ (0x61 ≤ c.toNat ∧ c.toNat ≤ 0x7A) := by
  simp [isalpha, isupper_iff, islower_iff]

theorem isalnum_iff (c : Byte) : isalnum c = true ↔ isalpha c = true ∨ isdigit c = true := by
  simp [isalnum]

theorem upper_of_islower {c : Byte} (h : islower c = true) : upper c = c - 0x20#8 := if_pos h

theorem upper_of_not_islower {c : Byte} (h : ¬islower c = true) : upper c = c := if_neg h

theorem upper_toNat (c : Byte) :
    (upper c).toNat = if 0x61 ≤ c.toNat ∧ c.toNat ≤ 0x7A then c.toNat - 0x20 else c.toNat := by
  by_cases h : islower c = true
  · have hrange := (islower_iff c).mp h
    rw [upper_of_islower h, if_pos hrange]
    bv_omega
  · rw [upper_of_not_islower h, if_neg (mt (islower_iff c).mpr h)]

/-- A character that folds to `u` is `u` itself or the lower-case letter of `u`. -/
theorem eq_or_eq_add_of_upper_eq {c u : Byte} (h : upper c = u) : c = u ∨ c = u + 0x20#8 := by
  by_cases hl : islower c = true
  · rw [upper_of_islower hl] at h
    exact .inr (by rw [← h, BitVec.sub_add_cancel])
  · exact .inl (upper_of_not_islower hl ▸ h)

/-! ### Decimal numbers (00_scope.md R10) -/

@[simp] theorem isdigit_chr (d : Fin 10) : isdigit (chr d) = true := by
  revert d; decide

@[simp] theorem isalpha_chr (d : Fin 10) : isalpha (chr d) = false := by
  revert d; decide

@[simp] theorem digitValue_chr (d : Fin 10) : digitValue (chr d) = d.val := by
  revert d; decide

/-- A list of digit characters is summed under either value of `NUMERIC_FALLBACK`. -/
theorem decn_map_chr (f : NumericFallback) (ds : List (Fin 10)) : decn f (ds.map chr) = decimalSum (ds.map chr) := by
  cases f with
  | fieldZero => simp [decn]
  | charZero => rfl

theorem dec2_chr (f : NumericFallback) (a b : Fin 10) : dec2 f (chr a) (chr b) = 10 * a.val + b.val := by
  have hsum : dec2 f (chr a) (chr b) = decimalSum [chr a, chr b] := decn_map_chr f [a, b]
  simp [hsum, decimalSum, Nat.mul_comm]

theorem dec3_chr (f : NumericFallback) (a b c : Fin 10) :
    dec3 f (chr a) (chr b) (chr c) = 100 * a.val + 10 * b.val + c.val := by
  have hsum : dec3 f (chr a) (chr b) (chr c) = decimalSum [chr a, chr b, chr c] := decn_map_chr f [a, b, c]
  simp [hsum, decimalSum]
  omega

/-- Under `FIELD_ZERO` one character that is no digit makes the whole number 0. -/
theorem decn_fieldZero_of_mem {c : Byte} {cs : List Byte} (hmem : c ∈ cs) (hc : isdigit c = false) :
    decn .fieldZero cs = 0 := by
  have hall : ¬cs.all isdigit = true := fun h => by simp [List.all_eq_true.mp h c hmem] at hc
  exact if_neg hall

/-! ### The substitution letters (42_omocodia.md R141, R142) -/

theorem isalpha_substitutionLetter (d : Fin 10) :
    isalpha (substitutionLetter d) = true ∧ isalpha (substitutionLetter d + 0x20#8) = true := by
  revert d; decide

theorem l2d_substitutionLetter (d : Fin 10) :
    l2d (substitutionLetter d) = chr d ∧ l2d (substitutionLetter d + 0x20#8) = chr d := by
  revert d; decide

/-- All that `l2d` can yield: `NUL`, or the digit character of the substitution letter that `c` folds to. -/
theorem l2d_cases (c : Byte) :
    l2d c = Config.NUL ∨ ∃ d : Fin 10, upper c = substitutionLetter d ∧ l2d c = chr d := by
  unfold l2d
  split
  next h => exact .inr ⟨0, h, rfl⟩
  next h => exact .inr ⟨1, h, rfl⟩
  next h => exact .inr ⟨2, h, rfl⟩
  next h => exact .inr ⟨3, h, rfl⟩
  next h => exact .inr ⟨4, h, rfl⟩
  next h => exact .inr ⟨5, h, rfl⟩
  next h => exact .inr ⟨6, h, rfl⟩
  next h => exact .inr ⟨7, h, rfl⟩
  next h => exact .inr ⟨8, h, rfl⟩
  next h => exact .inr ⟨9, h, rfl⟩
  next => exact .inl rfl

/-! ### The mask bits (42_omocodia.md R143) -/

theorem maskShiftIn_getElem_zero (m : BitVec 7) (c : Byte) : (maskShiftIn m c)[0] = isalpha c := by
  cases h : isalpha c <;> simp [maskShiftIn, h]

theorem maskShiftIn_getElem_succ (m : BitVec 7) (c : Byte) (b : Nat) (hb : b + 1 < 7) :
    (maskShiftIn m c)[b + 1] = m[b] := by
  cases h : isalpha c <;> simp [maskShiftIn, h]

/-- Bit 6 of the mask belongs to the first eligible position, bit 0 to the last. -/
theorem emask_getLsbD (s : Chars) (k : Fin 7) :
    (emask s).getLsbD (6 - k.val) = isalpha s[eligiblePositions[k]] := by
  fin_cases k <;>
    simp [emask, eligiblePositions, maskShiftIn_getElem_zero, maskShiftIn_getElem_succ]

/-! ### The characters of a numeric field (43_codec.md R162, R164, R166, R169) -/

/-- What parse reads at an eligible position: a letter by `l2d`, any other character as it stands
(`reverseSubstituted_emask`). -/
def plainCharacter (c : Byte) : Byte := if isalpha c then l2d c else c

theorem reverseSubstituted_emask (s : Chars) (k : Fin 7) :
    reverseSubstituted s (emask s) eligiblePositions[k] (6 - k.val) = plainCharacter s[eligiblePositions[k]] := by
  simp only [reverseSubstituted, emask_getLsbD, plainCharacter]

theorem parseYear_eq (f : NumericFallback) (s : Chars) :
    parseYear f s = dec2 f (plainCharacter s[6]) (plainCharacter s[7]) :=
  congrArg₂ (dec2 f) (reverseSubstituted_emask s 0) (reverseSubstituted_emask s 1)

theorem dayGenderValue_eq (f : NumericFallback) (s : Chars) :
    dayGenderValue f s = dec2 f (plainCharacter s[9]) (plainCharacter s[10]) :=
  congrArg₂ (dec2 f) (reverseSubstituted_emask s 2) (reverseSubstituted_emask s 3)

theorem parseMnum_eq (f : NumericFallback) (s : Chars) :
    parseMnum f s = dec3 f (plainCharacter s[12]) (plainCharacter s[13]) (plainCharacter s[14]) := by
  have h12 : reverseSubstituted s (emask s) 12 2 = plainCharacter s[12] := reverseSubstituted_emask s 4
  have h13 : reverseSubstituted s (emask s) 13 1 = plainCharacter s[13] := reverseSubstituted_emask s 5
  have h14 : reverseSubstituted s (emask s) 14 0 = plainCharacter s[14] := reverseSubstituted_emask s 6
  simp only [parseMnum, h12, h13, h14]

/-- The character stands for the digit `d`: its digit character, or its substitution letter in either case. -/
def StandsForDigit (c : Byte) (d : Fin 10) : Prop :=
  c = chr d ∨ c = substitutionLetter d ∨ c = substitutionLetter d + 0x20#8

theorem plainCharacter_of_standsForDigit {c : Byte} {d : Fin 10} (h : StandsForDigit c d) :
    plainCharacter c = chr d := by
  obtain ⟨hupper, hlower⟩ := l2d_substitutionLetter d
  obtain ⟨haupper, halower⟩ := isalpha_substitutionLetter d
  rcases h with rfl | rfl | rfl
  · simp [plainCharacter]
  · rw [plainCharacter, if_pos haupper, hupper]
  · rw [plainCharacter, if_pos halower, hlower]

/-- A letter outside the ten reads as `NUL`, which is no digit. -/
theorem isdigit_plainCharacter_of_unmappable {c : Byte} (h : isalpha c = true ∧ ∀ d, ¬StandsForDigit c d) :
    isdigit (plainCharacter c) = false := by
  obtain ⟨halpha, hnone⟩ := h
  rw [plainCharacter, if_pos halpha]
  rcases l2d_cases c with hnul | ⟨d, hd, -⟩
  · rw [hnul]; decide
  · exact absurd (.inr (eq_or_eq_add_of_upper_eq hd)) (hnone d)

/-! ### The obligations -/

/-- Settles O29: one fact per class, and the value of `upper`. -/
theorem characterClassesAreTheAsciiRanges : Obligations.CharacterClassesAreTheAsciiRanges :=
  fun c => ⟨isdigit_iff c, isalpha_iff c, isalnum_iff c, upper_toNat c⟩

/-- Settles O42: each field is the number of its plain characters. A character that stands for a digit reads as that
digit's character; a letter outside the ten reads as no digit, so `FIELD_ZERO` makes its field 0. -/
theorem numericFieldsReadDigitsAndSubstitutionLetters : Obligations.NumericFieldsReadDigitsAndSubstitutionLetters := by
  intro s
  have zeroes {c : Byte} {cs : List Byte} (h : isalpha c = true ∧ ∀ d, ¬StandsForDigit c d)
      (hmem : plainCharacter c ∈ cs) : decn .fieldZero cs = 0 :=
    decn_fieldZero_of_mem hmem (isdigit_plainCharacter_of_unmappable h)
  refine ⟨fun f a b ha hb => ?_, fun f a b ha hb => ?_, fun f a b c ha hb hc => ?_, ?_, ?_, ?_⟩
  · rw [parseYear_eq, plainCharacter_of_standsForDigit ha, plainCharacter_of_standsForDigit hb, dec2_chr]
  · rw [dayGenderValue_eq, plainCharacter_of_standsForDigit ha, plainCharacter_of_standsForDigit hb, dec2_chr]
  · rw [parseMnum_eq, plainCharacter_of_standsForDigit ha, plainCharacter_of_standsForDigit hb,
      plainCharacter_of_standsForDigit hc, dec3_chr]
  · rw [parseYear_eq]
    rintro (h | h) <;> exact zeroes h (by simp)
  · rw [dayGenderValue_eq]
    rintro (h | h) <;> exact zeroes h (by simp)
  · rw [parseMnum_eq]
    rintro (h | h | h) <;> exact zeroes h (by simp)

end Sys2Proof.Machine

/-!
The state family (10_state.md). A command is cut in two: its effect, computed from the registers and ports it reads, and the
writing of that effect. What a command keeps, what it depends on and what every step preserves are read off these two parts.
-/

namespace Sys2Proof.Machine

/-! ### Command words (30_encoding.md R80, R90) -/

@[simp] theorem RawCommand.ofWord_commandWord (op imm8 : Byte) : RawCommand.ofWord (commandWord op imm8) = ⟨op, imm8⟩ := by
  simp only [RawCommand.ofWord, commandWord, RawCommand.mk.injEq]
  exact ⟨BitVec.extractLsb'_append_eq_left, BitVec.extractLsb'_append_eq_right⟩

theorem commandWord_ofWord (w : CmdWord) : commandWord (RawCommand.ofWord w).op (RawCommand.ofWord w).imm8 = w :=
  BitVec.extractLsb'_append_extractLsb'_eq_extractLsb' (by decide) |>.trans (by simp)

theorem decode_commandWord (op imm8 : Byte) : decode (commandWord op imm8) = decodeRaw ⟨op, imm8⟩ := by
  rw [decode, RawCommand.ofWord_commandWord]

/-- Decoding the encoder's word gives the command back. -/
theorem decode_encode (i : Instr) : decode (encode i) = .ok i := by
  cases i <;> exact decode_commandWord _ _

theorem decodeReserved_eq_ok_iff {r : RawCommand} {i j : Instr} :
    decodeReserved r j = .ok i ↔ r.imm8 = 0x00#8 ∧ j = i := by
  by_cases h : r.imm8 = 0x00#8 <;> simp [decodeReserved, h]

/-- The fields of a word that make a command are the fields of the encoder's word. -/
theorem encode_of_decodeRaw {op imm8 : Byte} {i : Instr} (h : decodeRaw ⟨op, imm8⟩ = .ok i) :
    encode i = commandWord op imm8 := by
  have reserved {o : Byte} {j : Instr} (hop : op = o) (hj : decodeReserved ⟨op, imm8⟩ j = .ok i)
      (he : encode j = commandWord o 0x00#8) : encode i = commandWord op imm8 := by
    obtain ⟨himm, rfl⟩ := decodeReserved_eq_ok_iff.mp hj
    rw [he, hop, ← himm]
  have immediate {o : Byte} {j : Instr} (hop : op = o) (hj : Except.ok (ε := IllegalWord) j = .ok i)
      (he : encode j = commandWord o imm8) : encode i = commandWord op imm8 := by
    rw [← Except.ok.inj hj, he, hop]
  unfold decodeRaw at h
  split at h
  case h_20 => cases h
  case h_4 hop | h_5 hop | h_6 hop | h_7 hop | h_8 hop | h_9 hop => exact immediate hop h rfl
  all_goals
    rename_i hop
    exact reserved hop h rfl

/-- A word that decodes to a command is the encoder's word of that command. -/
theorem encode_of_decode {w : CmdWord} {i : Instr} (h : decode w = .ok i) : encode i = w :=
  (encode_of_decodeRaw h).trans (commandWord_ofWord w)

theorem tableWord_toNat (w : CmdWord) : tableWord 16 w.toNat = w := by
  rw [tableWord, Nat.mod_eq_of_lt w.isLt, BitVec.ofNat_toNat, BitVec.setWidth_eq]

/-! ### One step (10_state.md R24) -/

/-- A step on a presented word runs the command that the word decodes to. -/
theorem step_command {s : State} {p : Ports} {rest : List HostEvent} {i : Instr} (hin : s.inbox = .command p :: rest)
    (hdec : decode p.cw = .ok i) : step s = exec i (s.accept p rest) := by
  simp only [step, hin, hdec]

/-! ### The effect of a command -/

/-- What a command does to the registers, one constructor for each way a command can end. -/
inductive Effect where
  /-- NOP writes nothing (40_transfer.md R110). -/
  | nothing
  /-- `BAD_OPERAND` (60_exceptions.md R223). -/
  | refuse
  /-- A result in `RES` (10_state.md R28). -/
  | result (v : ResWord)
  /-- A record in `REC`: LDRAW, and PARSE of a valid string. -/
  | record (v : RecWord)
  /-- PARSE of an invalid string empties the record register (43_codec.md R173). -/
  | noRecord
  /-- A string in `SB` with its length: LDSTR and FORMAT. -/
  | string (c : Chars) (n : Byte)

/-- The state after an effect (`exec_eq_apply`). -/
@[simp] def Effect.apply : Effect → State → State
  | .nothing, s    => s
  | .refuse, s     => s.raise .badOperand
  | .result v, s   => s.yieldResult v
  | .record v, s   => ((s.writeREC v).writeRV true).writeST .ok
  | .noRecord, s   => ((s.writeREC 0).writeRV false).writeST .invalidFormat
  | .string c n, s => ((s.writeSB c).writeSLEN n).writeST .ok

/-- The registers an effect writes (`Effect.apply_frame`). -/
@[simp] def Effect.writes : Effect → List Register
  | .nothing    => []
  | .refuse     => [.ST]
  | .result _   => [.RES, .ST]
  | .record _   => [.REC, .RV, .ST]
  | .noRecord   => [.REC, .RV, .ST]
  | .string _ _ => [.SB, .SLEN, .ST]

/-- The effect of an accessor: a projection of `REC` (44_accessors.md R200). -/
def projectionEffect (s : State) (f : RecWord → ResWord) : Effect := if s.rv then .result (f s.readREC) else .refuse

/-- The effect of a command in a state (`exec_eq_apply`). -/
def effect (i : Instr) (s : State) : Effect :=
  match i with
  | .nop    => .nothing
  | .ldstr  => .string (charsOfWord s.ports.sin) s.ports.lin
  | .ldraw  => .record s.ports.din
  | .l2i c  => .result ((l2i c).setWidth 48)
  | .i2l n  => .result ((i2l n.toNat).setWidth 48)
  | .l2m c  => .result ((l2m c).setWidth 48)
  | .m2l n  => .result ((m2l n.toNat).setWidth 48)
  | .d2l c  => (d2l c).elim .refuse fun letter => .result (letter.setWidth 48)
  | .l2d c  => .result ((l2d c).setWidth 48)
  | .emask  => if s.slen = 16#8 then .result ((emask s.readSB).setWidth 48) else .refuse
  | .parse  =>
    if valid16 s.slen.toNat s.readSB then .record ((parseOk Config.params s.readSB).setWidth 80) else .noRecord
  | .format => if s.rv && wellFormedRecord s.readREC then .string (format s.readREC) 16#8 else .refuse
  | .gname  => projectionEffect s nameString
  | .gyear  => projectionEffect s fun r => (yearField r).setWidth 48
  | .gmonth => projectionEffect s fun r => (monField r).setWidth 48
  | .gday   => projectionEffect s fun r => (dayField r).setWidth 48
  | .ggen   => projectionEffect s fun r => (genField r).setWidth 48
  | .gmuni  =>
    if s.rv && decide ((mnumField s.readREC).toNat > 999) then .refuse else projectionEffect s municipalityString
  | .gchk   => projectionEffect s fun r => (letterOf (chkField r)).setWidth 48

theorem project_eq_apply (s : State) (f : RecWord → ResWord) : s.project f = (projectionEffect s f).apply s := by
  rcases s.project_cases f with ⟨hrv, h⟩ | ⟨hrv, h⟩ <;> simp [h, projectionEffect, hrv]

/-- Every command completes, with its effect. -/
theorem exec_eq_apply (i : Instr) (s : State) : exec i s = .next ((effect i s).apply s) := by
  cases i with
  | nop | ldstr | ldraw | l2i | i2l | l2m | m2l | l2d => rfl
  | gname | gyear | gmonth | gday | ggen | gchk => exact congrArg Host.Outcome.next (project_eq_apply s _)
  | d2l c =>
    rcases execD2l_cases c s with ⟨x, hx, h⟩ | ⟨hx, h⟩ <;> exact h.trans (by simp [effect, hx])
  | emask =>
    rcases execEmask_cases s with ⟨hlen, h⟩ | ⟨hlen, h⟩ <;> exact h.trans (by simp [effect, hlen])
  | parse =>
    rcases execParse_cases s with ⟨hv, h⟩ | ⟨hv, h⟩ <;> exact h.trans (by simp [effect, hv])
  | format =>
    rcases execFormat_cases s with ⟨hrv, hwf, h⟩ | ⟨hbad, h⟩
    · exact h.trans (by simp [effect, hrv, hwf])
    · have hcond : ¬(s.rv && wellFormedRecord s.readREC) = true := by rcases hbad with hb | hb <;> simp [hb]
      exact h.trans (by simp only [effect, if_neg hcond, Effect.apply])
  | gmuni =>
    by_cases hbig : (s.rv && decide ((mnumField s.readREC).toNat > 999)) = true
    · simp only [exec, execGmuni, effect, if_pos hbig, Effect.apply]
    · simp only [exec, execGmuni, effect, if_neg hbig, project_eq_apply]

/-- The state that a command ends in. -/
theorem eq_apply_of_exec {i : Instr} {s t : State} (h : exec i s = .next t) : t = (effect i s).apply s := by
  rw [exec_eq_apply] at h
  exact (Host.Outcome.next.inj h).symm

/-! ### What an effect writes -/

/-- An effect keeps every register that it does not write. -/
theorem Effect.apply_frame (e : Effect) (s : State) {r : Register} (hr : r ∉ e.writes) : AgreeOn s (e.apply s) r := by
  cases r with
  | REC | RV =>
    cases e with
    | record | noRecord => simp at hr
    | nothing | refuse | result | string => rfl
  | SB =>
    cases e with
    | string => simp at hr
    | nothing | refuse | result | record | noRecord => exact fun _ => rfl
  | SLEN =>
    cases e with
    | string => simp at hr
    | nothing | refuse | result | record | noRecord => rfl
  | RES =>
    cases e with
    | result => simp at hr
    | nothing | refuse | record | noRecord | string => rfl
  | ST =>
    cases e with
    | nothing => rfl
    | refuse | result | record | noRecord | string => simp at hr

/-- What an effect writes does not depend on the state it is written to. -/
theorem Effect.apply_agree (e : Effect) (s s' : State) {r : Register} (hr : r ∈ e.writes) :
    AgreeOn (e.apply s) (e.apply s') r := by
  cases e with
  | nothing => cases hr
  | refuse =>
    obtain rfl : r = .ST := by simpa using hr
    rfl
  | result v =>
    have hr : r = .RES ∨ r = .ST := by simpa using hr
    rcases hr with rfl | rfl <;> rfl
  | record | noRecord =>
    have hr : r = .REC ∨ r = .RV ∨ r = .ST := by simpa using hr
    rcases hr with rfl | rfl | rfl <;> rfl
  | string c n =>
    have hr : r = .SB ∨ r = .SLEN ∨ r = .ST := by simpa using hr
    rcases hr with rfl | rfl | rfl
    · exact fun _ => rfl
    · rfl
    · rfl

theorem Effect.apply_sameHost (e : Effect) (s : State) : SameHost s (e.apply s) := by
  cases e <;> exact ⟨rfl, rfl⟩

theorem projectionEffect_writes (s : State) (f : RecWord → ResWord) :
    projectionEffect s f = .refuse ∨ (projectionEffect s f).writes = [.RES, .ST] := by
  unfold projectionEffect
  split <;> simp

/-- A command is refused or writes all the registers of its row (10_state.md R36). -/
theorem effect_writes (i : Instr) (s : State) : effect i s = .refuse ∨ (effect i s).writes = writes i := by
  cases i with
  | nop | ldstr | ldraw | l2i | i2l | l2m | m2l | l2d => exact .inr rfl
  | gname | gyear | gmonth | gday | ggen | gchk => simp only [effect]; exact projectionEffect_writes s _
  | d2l c => cases h : d2l c <;> simp [effect, writes, h]
  | emask => simp only [effect]; split <;> simp [writes]
  | parse => simp only [effect]; split <;> simp [writes]
  | format => simp only [effect]; split <;> simp [writes]
  | gmuni =>
    simp only [effect]
    split
    · exact .inl rfl
    · exact projectionEffect_writes s _

/-- Every command but NOP writes `ST`. -/
theorem ST_mem_writes {i : Instr} (hi : i ≠ .nop) : Register.ST ∈ writes i := by
  cases i <;> simp [writes] at hi ⊢

theorem ST_mem_effect_writes {i : Instr} (hi : i ≠ .nop) (s : State) : Register.ST ∈ (effect i s).writes := by
  rcases effect_writes i s with h | h
  · simp [h]
  · exact h ▸ ST_mem_writes hi

theorem effect_writes_subset (i : Instr) (s : State) : (effect i s).writes ⊆ writes i := by
  by_cases hi : i = .nop
  · subst hi; exact List.nil_subset _
  · rcases effect_writes i s with h | h
    · rw [h]; exact List.cons_subset.mpr ⟨ST_mem_writes hi, List.nil_subset _⟩
    · exact h ▸ List.Subset.refl _

/-- A command keeps every register outside its row. -/
theorem effect_frame {i : Instr} {r : Register} (hr : r ∉ writes i) (s : State) : AgreeOn s ((effect i s).apply s) r :=
  (effect i s).apply_frame s (mt (@effect_writes_subset i s r) hr)

/-- PARSE and LDRAW are the commands that write the record register. -/
theorem eq_parse_or_ldraw_of_mem_writes {i : Instr} (h : Register.REC ∈ writes i ∨ Register.RV ∈ writes i) :
    i = .parse ∨ i = .ldraw := by
  cases i <;> simp [writes] at h ⊢

theorem effect_sameRecord {i : Instr} (hi : ¬(i = .parse ∨ i = .ldraw)) (s : State) :
    SameRecord s ((effect i s).apply s) := by
  have hrec : Register.REC ∉ writes i := fun h => hi (eq_parse_or_ldraw_of_mem_writes (.inl h))
  have hrv : Register.RV ∉ writes i := fun h => hi (eq_parse_or_ldraw_of_mem_writes (.inr h))
  exact ⟨(effect_frame hrec s).symm, (effect_frame hrv s).symm⟩

/-! ### What an effect depends on -/

theorem projectionEffect_congr {s s' : State} (hrec : s.readREC = s'.readREC) (hrv : s.rv = s'.rv)
    (f : RecWord → ResWord) : projectionEffect s f = projectionEffect s' f := by
  simp only [projectionEffect, hrec, hrv]

/-- The effect of a command is computed from the registers of its row and the ports it samples (10_state.md R35, R36). -/
theorem effect_congr {i : Instr} {s s' : State} (hregs : ∀ r ∈ reads i, AgreeOn s s' r)
    (hports : AgreeOnPayload s.ports s'.ports i) : effect i s = effect i s' := by
  cases i with
  | nop | l2i | i2l | l2m | m2l | d2l | l2d => rfl
  | ldstr =>
    obtain ⟨hsin, hlin⟩ := hports
    simp only [effect, hsin, hlin]
  | ldraw => exact congrArg Effect.record hports
  | emask | parse =>
    have hsb : s.readSB = s'.readSB := readSB_eq_of_cells (hregs .SB (by simp [reads]))
    have hslen : s.slen = s'.slen := hregs .SLEN (by simp [reads])
    simp only [effect, hsb, hslen]
  | format | gname | gyear | gmonth | gday | ggen | gmuni | gchk =>
    have hrec : s.readREC = s'.readREC := hregs .REC (by simp [reads])
    have hrv : s.rv = s'.rv := hregs .RV (by simp [reads])
    simp only [effect, hrec, hrv, projectionEffect_congr hrec hrv]

/-! ### The invariant (10_state.md R25; log 7) -/

theorem inv_takeReset (s : State) (rest : List HostEvent) : Inv (s.takeReset rest) := ⟨rfl, fun _ => rfl⟩

theorem Effect.apply_keeps_inv (e : Effect) {s : State} (h : Inv s) : Inv (e.apply s) := by
  obtain ⟨hsb, hrec⟩ := h
  cases e with
  | nothing | refuse | result => exact ⟨hsb, hrec⟩
  | record v => exact ⟨hsb, fun hrv => absurd hrv (by simp)⟩
  | noRecord => exact ⟨hsb, fun _ => by simp⟩
  | string c n => exact ⟨Memory.wf_store c, hrec⟩

/-! ### Bits of a register -/

theorem toNat_extractLsb'_eq_div {w : Nat} (v : BitVec w) (start len : Nat) :
    (v.extractLsb' start len).toNat = v.toNat / 2 ^ start % 2 ^ len := by
  rw [BitVec.extractLsb'_toNat, Nat.shiftRight_eq_div_pow]

theorem chkField_toNat (r : RecWord) : (chkField r).toNat = r.toNat % 32 := by
  rw [chkField, toNat_extractLsb'_eq_div, pow_zero, Nat.div_one]
  rfl

theorem nameGroup_toNat (r : RecWord) (j : Fin 6) : (nameGroup r j).toNat = r.toNat / 2 ^ (62 - 5 * j.val) % 32 := by
  simp only [nameGroup, nameField, toNat_extractLsb'_eq_div]
  fin_cases j <;> simp <;> omega

theorem padField_toNat (r : RecWord) : (padField r).toNat = r.toNat / 2 ^ 74 := by
  rw [padField, toNat_extractLsb'_eq_div]
  have := r.isLt
  omega

theorem padField_readREC (s : State) : padField s.readREC = 0 := by
  apply BitVec.eq_of_toNat_eq
  rw [padField_toNat, State.readREC, BitVec.toNat_setWidth_of_le (by decide)]
  exact Nat.div_eq_of_lt s.recBits.isLt

@[simp] theorem rvBit_eq_one_iff (b : Bool) : rvBit b = 1#1 ↔ b = true := by
  cases b <;> decide

theorem Status.code_injective {x y : Status} (h : x.code = y.code) : x = y := by
  cases x <;> cases y <;> revert h <;> decide

theorem outputs_sout_lane (s : State) (i : Fin 16) : s.outputs.sout.extractLsb' (8 * i.val) 8 = s.sb.cell i :=
  (lane_wordOfChars s.readSB i).trans (s.readSB_getElem i)

/-! ### The obligations -/

/-- Settles O16: a step holds the state, resets it, raises a status, or applies the effect of a command, and each of these
keeps the invariant. -/
theorem everyStepKeepsTheInvariant : Obligations.EveryStepKeepsTheInvariant := by
  intro s t hinv hstep
  rcases step_cases hstep with ⟨-, rfl⟩ | ⟨rest, -, rfl⟩ | ⟨p, rest, i, -, -, hexec⟩ | ⟨p, rest, e, -, -, rfl⟩
  · exact hinv
  · exact inv_takeReset s rest
  · rw [eq_apply_of_exec hexec]
    exact (effect i (s.accept p rest)).apply_keeps_inv hinv
  · exact hinv

/-- Settles O17: a register outside the row is not written by the effect, and no effect touches the host's side. -/
theorem commandsWriteOnlyTheirRegisters : Obligations.CommandsWriteOnlyTheirRegisters := by
  intro i s t hexec
  rw [eq_apply_of_exec hexec]
  exact ⟨fun _ hr => effect_frame hr s, (effect i s).apply_sameHost s⟩

/-- Settles O18: the two states give the same effect, and what an effect writes is the same in both; unless the command is
refused, it writes its whole row. -/
theorem commandsDependOnlyOnWhatTheyRead : Obligations.CommandsDependOnlyOnWhatTheyRead := by
  intro i s s' t t' hi hregs hports hexec hexec'
  have heffect : effect i s = effect i s' := effect_congr hregs hports
  rw [eq_apply_of_exec hexec, eq_apply_of_exec hexec', ← heffect]
  refine ⟨(effect i s).apply_agree s s' (ST_mem_effect_writes hi s), fun hok r hr => ?_⟩
  have hwrites : (effect i s).writes = writes i :=
    (effect_writes i s).resolve_left fun hrefuse => hok (by simp [hrefuse])
  exact (effect i s).apply_agree s s' (hwrites ▸ hr)

/-- Settles O22: of the cases of a step only the reset and a command change the record; a command that writes `REC` or `RV`
is PARSE or LDRAW, whose words are 0x3000 and 0x0200. -/
theorem recordChangesOnlyByParseLdrawOrReset : Obligations.RecordChangesOnlyByParseLdrawOrReset := by
  intro s t hstep hchanged
  rcases step_cases hstep with ⟨-, rfl⟩ | ⟨rest, hin, -⟩ | ⟨p, rest, i, hin, hdec, hexec⟩ | ⟨p, rest, e, -, -, rfl⟩
  · exact absurd (SameRecord.refl t) hchanged
  · exact .inl ⟨rest, hin⟩
  · refine .inr ⟨p, rest, hin, ?_⟩
    have hi : i = .parse ∨ i = .ldraw := by
      by_contra hi
      rw [eq_apply_of_exec hexec] at hchanged
      exact hchanged (effect_sameRecord hi (s.accept p rest))
    rw [← encode_of_decode hdec]
    rcases hi with rfl | rfl
    · exact .inl rfl
    · exact .inr rfl
  · exact absurd (SameRecord.refl s) hchanged

/-- Settles O23: lane i of the string port is cell i, and the codes tell the four statuses apart. -/
theorem outputPortsShowTheRegisters : Obligations.OutputPortsShowTheRegisters :=
  ⟨fun s => ⟨rfl, rvBit_eq_one_iff s.rv, outputs_sout_lane s, rfl, rfl, rfl⟩, fun _ _ => Status.code_injective,
    rfl, rfl, rfl, rfl⟩

/-- Settles O6: accepting the presented ports is the only change before the command runs. -/
theorem stepRunsTheDecodedCommand : Obligations.StepRunsTheDecodedCommand :=
  fun _ _ _ _ hin hdec _ => step_command hin hdec

/-- Settles O7: the presented word is the encoder's, so it decodes to the command. -/
theorem presentedWordRunsNext : Obligations.PresentedWordRunsNext := by
  intro s i
  rw [State.withFetchWord, tableWord_toNat]
  exact step_command (s.presentWord_inbox (encode i)) (decode_encode i)

/-- Settles O15: the state after reset is one that the reset event leaves. -/
theorem invariantHoldsAtReset : Obligations.InvariantHoldsAtReset := inv_takeReset State.reset []

/-- Settles O24: every field is cut out of the record by its bit range. -/
theorem recordFieldsAreTheirBitRanges : Obligations.RecordFieldsAreTheirBitRanges :=
  ⟨padField_readREC, fun r =>
    ⟨chkField_toNat r, toNat_extractLsb'_eq_div r 5 10, toNat_extractLsb'_eq_div r 15 5,
      toNat_extractLsb'_eq_div r 20 1, toNat_extractLsb'_eq_div r 21 5, toNat_extractLsb'_eq_div r 26 4,
      toNat_extractLsb'_eq_div r 30 7, toNat_extractLsb'_eq_div r 67 7, padField_toNat r, nameGroup_toNat r⟩⟩

end Sys2Proof.Machine

/-!
The memory family (20_memory.md). A run takes one event per step and no step looks past its event; a command reads none of
the registers that it writes; the ten bytes of a record, joined again, are the record.
-/

namespace Sys2Proof.Machine

/-! ### What the host does later (20_memory.md R59, R62) -/

/-- The effect of a command does not depend on what the host does next. -/
theorem effect_withInbox (i : Instr) (s : State) (l : List HostEvent) : effect i { s with inbox := l } = effect i s := by
  cases i <;> rfl

/-- Writing an effect leaves the host's list as it is, whatever that is. -/
theorem Effect.apply_withInbox (e : Effect) (s : State) (l : List HostEvent) :
    e.apply { s with inbox := l } = { e.apply s with inbox := l } := by
  cases e <;> rfl

theorem exec_withInbox (i : Instr) (s : State) (l : List HostEvent) :
    exec i { s with inbox := l } = .next { (effect i s).apply s with inbox := l } := by
  rw [exec_eq_apply, effect_withInbox, Effect.apply_withInbox]

/-- A step takes one event and does not look past it: with other events to come it ends in the same state but for them. -/
theorem step_takes_one_event {s t : State} {e : HostEvent} {now : List HostEvent}
    (h : step { s with inbox := e :: now } = .next t) (later : List HostEvent) :
    t.inbox = now ∧ step { s with inbox := e :: later } = .next { t with inbox := later } := by
  cases e with
  | portConflict | resetDuringCommand => cases h
  | reset => cases h; exact ⟨rfl, rfl⟩
  | command p =>
    cases hdec : decode p.cw with
    | error =>
      simp only [step, hdec] at h ⊢
      cases h
      exact ⟨rfl, rfl⟩
    | ok i =>
      have runs (l : List HostEvent) : step { s with inbox := .command p :: l } =
          .next { (effect i (s.accept p [])).apply (s.accept p []) with inbox := l } :=
        (step_command rfl hdec).trans (exec_withInbox i (s.accept p []) l)
      rw [runs now] at h
      cases h
      exact ⟨rfl, runs later⟩

/-- A run that ends in a next state goes through the state after its first step. -/
theorem run_succ_eq_next_iff {M : Host.Core} {n : Nat} {s t : M.State} :
    M.run (n + 1) s = .next t ↔ ∃ u, M.step s = .next u ∧ M.run n u = .next t := by
  rw [Host.Core.run]
  cases M.step s with
  | next u => exact ⟨fun h => ⟨u, rfl, h⟩, fun ⟨_, hu, h⟩ => Host.Outcome.next.inj hu ▸ h⟩
  | fault | refused => exact ⟨nofun, nofun⟩

/-! ### A command repeated (20_memory.md R56) -/

/-- No command reads a register that it writes (10_state.md R36). -/
theorem not_mem_writes_of_mem_reads {i : Instr} {r : Register} (hr : r ∈ reads i) : r ∉ writes i := by
  cases i with
  | nop | ldstr | ldraw | l2i | i2l | l2m | m2l | d2l | l2d => cases hr
  | emask | parse | format | gname | gyear | gmonth | gday | ggen | gmuni | gchk => revert r; decide

theorem AgreeOnPayload.refl (p : Ports) (i : Instr) : AgreeOnPayload p p i := by
  cases i with
  | ldstr => exact ⟨rfl, rfl⟩
  | ldraw => rfl
  | _ => trivial

/-- A command leaves the registers and ports that its effect is computed from, so it has the same effect again. -/
theorem effect_apply_effect (i : Instr) (s : State) : effect i ((effect i s).apply s) = effect i s := by
  have hregs : ∀ r ∈ reads i, AgreeOn s ((effect i s).apply s) r :=
    fun r hr => effect_frame (not_mem_writes_of_mem_reads hr) s
  obtain ⟨hports, -⟩ := (effect i s).apply_sameHost s
  exact (effect_congr hregs (hports ▸ AgreeOnPayload.refl s.ports i)).symm

/-- Writing an effect twice is writing it once. -/
theorem Effect.apply_apply (e : Effect) (s : State) : e.apply (e.apply s) = e.apply s := by
  cases e <;> rfl

/-! ### The byte image of a record (20_memory.md R52) -/

theorem recordImage_getElem_toNat (r : RecWord) (k : Fin 10) :
    (recordImage r)[k].toNat = r.toNat / 2 ^ (8 * k.val) % 256 := by
  have hbyte : (recordImage r)[k] = lane r k := by simp [recordImage]
  rw [hbyte]
  exact toNat_extractLsb'_eq_div r (8 * k.val) 8

/-- The `n` bits above byte `k`, joined to that byte. -/
theorem extractLsb'_append_lane {w : Nat} (v : BitVec w) (k n : Nat) :
    v.extractLsb' (8 * (k + 1)) n ++ lane v k = v.extractLsb' (8 * k) (n + 8) :=
  BitVec.extractLsb'_append_extractLsb'_eq_extractLsb' (by omega)

/-- The bytes are joined from the highest down; each one extends the part of the record above it. -/
theorem recordOfImage_recordImage (r : RecWord) : recordOfImage (recordImage r) = r := by
  have join (k n : Nat) := extractLsb'_append_lane r k n
  have top : lane r 9 = r.extractLsb' (8 * 9) 8 := rfl
  simp only [recordOfImage, recordImage, Vector.getElem_ofFn]
  rw [top, join 8, join 7, join 6, join 5, join 4, join 3, join 2, join 1, join 0]
  exact BitVec.extractLsb'_eq_self

theorem recordImage_getElem_zero (r : RecWord) :
    (recordImage r)[0].toNat = (chkField r).toNat + 32 * ((mnumField r).toNat % 8) := by
  have hbyte : (recordImage r)[0].toNat = r.toNat / 2 ^ 0 % 256 := recordImage_getElem_toNat r 0
  have hmnum : (mnumField r).toNat = r.toNat / 2 ^ 5 % 2 ^ 10 := toNat_extractLsb'_eq_div r 5 10
  rw [hbyte, chkField_toNat, hmnum]
  omega

theorem recordImage_getElem_nine (r : RecWord) :
    (recordImage r)[9].toNat = (omaskField r).toNat / 32 + 4 * (padField r).toNat := by
  have hbyte : (recordImage r)[9].toNat = r.toNat / 2 ^ 72 % 256 := recordImage_getElem_toNat r 9
  have homask : (omaskField r).toNat = r.toNat / 2 ^ 67 % 2 ^ 7 := toNat_extractLsb'_eq_div r 67 7
  have hlt : r.toNat < 2 ^ 80 := r.isLt
  rw [hbyte, padField_toNat, homask]
  omega

/-! ### The obligations -/

/-- Settles O14, by induction on the events that the run takes: each step takes its event and ends in the same state
whatever is still to come. -/
theorem laterCommandsAreNotSeen : Obligations.LaterCommandsAreNotSeen := by
  intro s t now later hrun
  induction now generalizing s with
  | nil => cases hrun; exact ⟨rfl, rfl⟩
  | cons e now ih =>
    obtain ⟨u, hstep, hrest⟩ := run_succ_eq_next_iff.mp hrun
    obtain ⟨rfl, hstep'⟩ := step_takes_one_event hstep (now ++ later)
    obtain ⟨hinbox, hrest'⟩ := ih u hrest
    exact ⟨hinbox, run_succ_eq_next_iff.mpr ⟨_, hstep', hrest'⟩⟩

/-- Settles O19: the command has the same effect in the state it produced, and writing an effect twice is writing it
once. -/
theorem repeatingACommandChangesNothing : Obligations.RepeatingACommandChangesNothing := by
  intro i s t hexec
  rw [eq_apply_of_exec hexec, exec_eq_apply, effect_apply_effect, Effect.apply_apply]

/-- Settles O25: byte k is lane k of the record, and the lanes are joined again in their order. -/
theorem recordImageIsLittleEndian : Obligations.RecordImageIsLittleEndian :=
  fun r => ⟨recordOfImage_recordImage r, recordImage_getElem_toNat r, recordImage_getElem_zero r,
    recordImage_getElem_nine r⟩

end Sys2Proof.Machine

/-!
The encoding family (30_encoding.md). The encoder and the decoder are inverse on the legal words, and these are the words that
select a row of the opcode map. Which words are illegal, and how many are legal, is read off the opcode byte. The
pseudo-instructions are runs of two commands.
-/

namespace Sys2Proof.Machine

/-! ### Words and rows of the opcode map (30_encoding.md R83) -/

/-- A word is decoded exactly when it is the encoder's. -/
theorem decode_eq_ok_iff {w : CmdWord} {i : Instr} : decode w = .ok i ↔ encode i = w :=
  ⟨encode_of_decode, fun h => h ▸ decode_encode i⟩

theorem encode_injective {i j : Instr} (h : encode i = encode j) : i = j :=
  Except.ok.inj ((decode_eq_ok_iff.mpr h).symm.trans (decode_encode j))

theorem commandWord_inj {op op' imm8 imm8' : Byte} :
    commandWord op imm8 = commandWord op' imm8' ↔ op = op' ∧ imm8 = imm8' := by
  constructor
  · intro h
    simpa using congrArg RawCommand.ofWord h
  · rintro ⟨rfl, rfl⟩
    rfl

theorem row_mem_opTable (i : Instr) : i.row ∈ opTable := by
  cases i with
  | l2i | i2l | l2m | m2l | d2l | l2d => simp [opTable, Instr.oneOfEach, Instr.row]
  | _ => decide

theorem exists_row_of_mem_opTable {row : OpRow} (h : row ∈ opTable) : ∃ i : Instr, i.row = row := by
  obtain ⟨i, -, hi⟩ := List.mem_map.mp h
  exact ⟨i, hi⟩

/-- The encoder's word selects the row of its command. -/
theorem encode_and_row_mask (i : Instr) : encode i &&& i.row.mask = i.row.pattern := by
  cases i with
  | l2i c | i2l c | l2m c | m2l c | d2l c | l2d c => exact Laws.commandWord_and_mask _ c
  | _ => decide

/-- A word with the high byte of a command word is that word but for its low byte. -/
theorem eq_commandWord_of_and_mask {w : CmdWord} {op imm8 : Byte}
    (h : w &&& 0xFF00#16 = commandWord op imm8 &&& 0xFF00#16) : w = commandWord op (RawCommand.ofWord w).imm8 := by
  rw [← commandWord_ofWord w, Laws.commandWord_and_mask, Laws.commandWord_and_mask, commandWord_inj] at h
  rw [← h.1, commandWord_ofWord]

/-- The words that select a row are the encoder's words of the commands of that row. -/
theorem selects_row_iff {w : CmdWord} {row : OpRow} (hrow : row ∈ opTable) :
    w &&& row.mask = row.pattern ↔ ∃ i : Instr, i.row = row ∧ encode i = w := by
  constructor
  · intro h
    obtain ⟨j, rfl⟩ := exists_row_of_mem_opTable hrow
    rw [← encode_and_row_mask j] at h
    cases j with
    | l2i | i2l | l2m | m2l | d2l | l2d =>
      rw [eq_commandWord_of_and_mask h]
      refine ⟨_, ?_, encode_of_decode (decode_commandWord _ _)⟩
      rfl
    | _ => exact ⟨_, rfl, (BitVec.and_allOnes.symm.trans (h.trans BitVec.and_allOnes)).symm⟩
  · rintro ⟨i, rfl, rfl⟩
    exact encode_and_row_mask i

/-! ### Illegal words (30_encoding.md R84) -/

/-- Whether the commands with an opcode byte take an immediate; `none` for an opcode byte outside the table. -/
def takesImmediate? (op : Byte) : Option Bool := (RawCommand.mk op 0x00#8).row?.map fun row => row.format.takesImmediate

/-- Legality of a word, from its opcode byte and whether its low byte is 0. -/
theorem legal_eq (r : RawCommand) :
    r.legal = (takesImmediate? r.op).elim false fun takes => takes || r.imm8 == 0x00#8 := by
  have hrow : (RawCommand.mk r.op 0x00#8).row? = r.row? := rfl
  rw [RawCommand.legal, RawCommand.knownOpcode, RawCommand.reservedIsZero, takesImmediate?, hrow]
  cases r.row? <;> rfl

theorem not_legal_iff (r : RawCommand) :
    ¬r.legal = true ↔ takesImmediate? r.op = none ∨ takesImmediate? r.op = some false ∧ r.imm8 ≠ 0x00#8 := by
  rw [legal_eq]
  cases takesImmediate? r.op with
  | none => simp
  | some takes => cases takes <;> simp

/-- The decoder accepts the words that pass both checks. -/
theorem isSome_decodeRaw (r : RawCommand) : (decodeRaw r).toOption.isSome = r.legal := by
  obtain ⟨op, imm8⟩ := r
  have reserved (j : Instr) : (decodeReserved ⟨op, imm8⟩ j).toOption.isSome = (imm8 == 0x00#8) := by
    by_cases h : imm8 = 0x00#8 <;> simp [decodeReserved, h, Except.toOption]
  unfold decodeRaw
  split
  case h_4 hop | h_5 hop | h_6 hop | h_7 hop | h_8 hop | h_9 hop =>
    rw [show op = _ from hop]; rfl
  case h_20 =>
    have hnone : (RawCommand.mk op imm8).row? = none := by
      refine List.find?_eq_none.mpr fun row hrow heq => ?_
      obtain ⟨i, rfl⟩ := exists_row_of_mem_opTable hrow
      obtain rfl : _ = op := eq_of_beq heq
      cases i <;> simp_all [Instr.row]
    simp [RawCommand.legal, RawCommand.knownOpcode, hnone, Except.toOption]
  all_goals
    rename_i hop
    rw [reserved, show op = _ from hop]; rfl

theorem decode_eq_error_iff (w : CmdWord) : (∃ e, decode w = .error e) ↔ ¬(RawCommand.ofWord w).legal = true := by
  rw [← isSome_decodeRaw]
  change (∃ e, decode w = .error e) ↔ ¬(decode w).toOption.isSome = true
  cases decode w <;> simp [Except.toOption]

theorem takesImmediate?_eq_none_iff (op : Byte) :
    takesImmediate? op = none ↔
      (0x03 ≤ op.toNat ∧ op.toNat ≤ 0x0F) ∨ (0x14 ≤ op.toNat ∧ op.toNat ≤ 0x1F) ∨ (0x23 ≤ op.toNat ∧ op.toNat ≤ 0x2F) ∨
      (0x32 ≤ op.toNat ∧ op.toNat ≤ 0x3F) ∨ (0x47 ≤ op.toNat ∧ op.toNat ≤ 0x4F) ∨
      (0x50 ≤ op.toNat ∧ op.toNat ≤ 0xFF) := by
  revert op; decide

theorem takesImmediate?_eq_false_iff (op : Byte) :
    takesImmediate? op = some false ↔
      op.toNat ∈ [0x00, 0x01, 0x02, 0x22, 0x30, 0x31, 0x40, 0x41, 0x42, 0x43, 0x44, 0x45, 0x46] := by
  revert op; decide

theorem ofWord_op_toNat (w : CmdWord) : (RawCommand.ofWord w).op.toNat = w.toNat / 256 := by
  have hop : (RawCommand.ofWord w).op.toNat = w.toNat / 2 ^ 8 % 2 ^ 8 := toNat_extractLsb'_eq_div w 8 8
  have hlt : w.toNat < 2 ^ 16 := w.isLt
  omega

theorem ofWord_imm8_toNat (w : CmdWord) : (RawCommand.ofWord w).imm8.toNat = w.toNat % 256 := by
  have himm : (RawCommand.ofWord w).imm8.toNat = w.toNat / 2 ^ 0 % 2 ^ 8 := toNat_extractLsb'_eq_div w 0 8
  omega

theorem ofWord_ofNat (a : Nat) {b : Nat} (hb : b < 256) :
    RawCommand.ofWord (BitVec.ofNat 16 (256 * a + b)) = ⟨BitVec.ofNat 8 a, BitVec.ofNat 8 b⟩ := by
  have hop := ofWord_op_toNat (BitVec.ofNat 16 (256 * a + b))
  have himm := ofWord_imm8_toNat (BitVec.ofNat 16 (256 * a + b))
  rw [BitVec.toNat_ofNat] at hop himm
  refine congrArg₂ RawCommand.mk (BitVec.eq_of_toNat_eq (hop.trans ?_)) (BitVec.eq_of_toNat_eq (himm.trans ?_))
  · rw [BitVec.toNat_ofNat]; omega
  · rw [BitVec.toNat_ofNat]; omega

/-! ### How many words are legal (30_encoding.md R84) -/

/-- Counting below `n * m` is counting in `n` blocks of `m`. -/
theorem countP_range_mul (p : Nat → Bool) (m n : Nat) :
    (List.range (n * m)).countP p = ((List.range n).map fun a => (List.range m).countP fun b => p (m * a + b)).sum := by
  induction n with
  | zero => simp
  | succ n ih =>
    rw [Nat.succ_mul, List.range_add, List.countP_append, ih, List.countP_map, List.range_succ, List.map_append,
      List.sum_append, Nat.mul_comm n m]
    simp [Function.comp_def]

/-- How many of the 256 words with one opcode byte are legal (`countP_legal`). -/
def legalImmediates : Option Bool → Nat
  | some true  => 256
  | some false => 1
  | none       => 0

theorem countP_legal (op : Byte) :
    (List.range 256).countP (fun b => (RawCommand.mk op (BitVec.ofNat 8 b)).legal) = legalImmediates (takesImmediate? op) := by
  simp only [legal_eq]
  cases takesImmediate? op with
  | none => simp [legalImmediates]
  | some takes =>
    cases takes with
    | true => simp [legalImmediates]
    | false =>
      have hzero : (List.range 256).countP (fun b => BitVec.ofNat 8 b == 0x00#8) = 1 := by decide +kernel
      exact hzero

theorem countP_decode :
    (List.range 65536).countP (fun w => (decode (BitVec.ofNat 16 w)).toOption.isSome) =
      ((List.range 256).map fun a => legalImmediates (takesImmediate? (BitVec.ofNat 8 a))).sum := by
  refine (countP_range_mul _ 256 256).trans (congrArg List.sum (List.map_congr_left fun a _ => ?_))
  rw [← countP_legal]
  refine List.countP_congr fun b hb => ?_
  rw [← ofWord_ofNat a (List.mem_range.mp hb), ← isSome_decodeRaw, decode]

theorem sum_legalImmediates :
    ((List.range 256).map fun a => legalImmediates (takesImmediate? (BitVec.ofNat 8 a))).sum = 1549 := by decide +kernel

/-! ### A presented word (30_encoding.md R84; 60_exceptions.md R222) -/

/-- A step on a presented word that is illegal ends with its status. -/
theorem step_illegal {s : State} {p : Ports} {rest : List HostEvent} {e : IllegalWord}
    (hin : s.inbox = .command p :: rest) (hdec : decode p.cw = .error e) :
    step s = .next (s.accept p rest).illegalCommand := by
  simp only [step, hin, hdec]

/-! ### The pseudo-instructions (30_encoding.md R89) -/

theorem effect_sameString {i : Instr} (hsb : Register.SB ∉ writes i) (hslen : Register.SLEN ∉ writes i) (s : State) :
    SameString s ((effect i s).apply s) :=
  ⟨fun a => (effect_frame hsb s a).symm, (effect_frame hslen s).symm⟩

theorem effect_res {i : Instr} (hres : Register.RES ∉ writes i) (s : State) : ((effect i s).apply s).res = s.res :=
  (effect_frame hres s).symm

/-- Two presented commands run one after the other, the second from the state that the first leaves. -/
theorem run_two_commands {s u : State} {p q : Ports} {rest : List HostEvent} {i j : Instr}
    (hin : s.inbox = .command p :: .command q :: rest) (hi : decode p.cw = .ok i) (hj : decode q.cw = .ok j)
    (hu : u = ((effect i (s.accept p (.command q :: rest))).apply (s.accept p (.command q :: rest))).accept q rest) :
    core.run 2 s = .next ((effect j u).apply u) := by
  obtain ⟨-, hnext⟩ := (effect i (s.accept p (.command q :: rest))).apply_sameHost (s.accept p (.command q :: rest))
  have hfirst := (step_command hin hi).trans (exec_eq_apply i _)
  have hsecond := (step_command hnext hj).trans (exec_eq_apply j _)
  rw [← hu] at hsecond
  exact run_succ_eq_next_iff.mpr ⟨_, hfirst, run_succ_eq_next_iff.mpr ⟨_, hsecond, rfl⟩⟩

theorem parse_eq_ok_iff {p : CodecParams} {n : Nat} {c : Chars} {r : RecWord} :
    parse p n c = .ok r ↔ valid16 n c = true ∧ (parseOk p c).setWidth 80 = r := by
  cases h : valid16 n c <;> simp [parse, h]

/-- PARSE of a string that parses stores its record (43_codec.md R173). -/
theorem apply_effect_parse_of_ok {s : State} {r : RecWord} (h : parse Config.params s.slen.toNat s.readSB = .ok r) :
    ((effect .parse s).apply s).readREC = r ∧ ((effect .parse s).apply s).rv = true ∧
      ((effect .parse s).apply s).st = .ok := by
  obtain ⟨hvalid, rfl⟩ := parse_eq_ok_iff.mp h
  have heffect : effect .parse s = .record ((parseOk Config.params s.readSB).setWidth 80) := if_pos hvalid
  rw [heffect]
  exact ⟨s.writeREC_setWidth_readREC _, rfl, rfl⟩

/-- PARSE of a string that does not parse empties the record register (43_codec.md R173). -/
theorem apply_effect_parse_of_error {s : State} {e : CodecError}
    (h : parse Config.params s.slen.toNat s.readSB = .error e) :
    ((effect .parse s).apply s).readREC = 0 ∧ ((effect .parse s).apply s).rv = false ∧
      ((effect .parse s).apply s).st = .invalidFormat := by
  have hinvalid : ¬valid16 s.slen.toNat s.readSB = true := fun hvalid => by simp [parse, hvalid] at h
  have heffect : effect .parse s = .noRecord := if_neg hinvalid
  rw [heffect]
  exact ⟨rfl, rfl, rfl⟩

theorem parse_of_length_ne (p : CodecParams) {n : Nat} (c : Chars) (hn : n ≠ 16) :
    parse p n c = .error .invalidFormat := by
  simp [parse, valid16, hn]

/-- The state in which the second command of PARSESTR runs (`run_parsestr`). -/
def parsestrLoaded (s : State) (l : List Byte) : State :=
  ((Effect.string (charsOfWord (sinOfString l)) (linOfString l)).apply s).accept (portsOfWord (encode .parse)) s.inbox

theorem run_parsestr (s : State) (l : List Byte) :
    core.run 2 (s.withProgram [.parsestr l]) =
      .next ((effect .parse (parsestrLoaded s l)).apply (parsestrLoaded s l)) :=
  run_two_commands rfl (decode_encode .ldstr) (decode_encode .parse) rfl

theorem parsestrLoaded_inbox (s : State) (l : List Byte) : (parsestrLoaded s l).inbox = s.inbox := by
  simp [parsestrLoaded]

theorem parsestrLoaded_res (s : State) (l : List Byte) : (parsestrLoaded s l).res = s.res := by
  simp [parsestrLoaded]

theorem parsestrLoaded_readSB (s : State) (l : List Byte) :
    (parsestrLoaded s l).readSB = charsOfWord (sinOfString l) := by
  simp [parsestrLoaded]

theorem parsestrLoaded_cell (s : State) (l : List Byte) (i : Fin 16) :
    (parsestrLoaded s l).sb.cell i = if h : i.val < l.length then l[i.val] else 0x00#8 := by
  rw [← State.readSB_getElem, parsestrLoaded_readSB, charsOfWord_sinOfString_getElem]

theorem parsestrLoaded_slen_toNat (s : State) (l : List Byte) : (parsestrLoaded s l).slen.toNat = min l.length 255 :=
  linOfString_toNat l

/-- PARSESTR of sixteen characters parses those characters. -/
theorem parse_parsestrLoaded (p : CodecParams) (s : State) (c : Chars) :
    parse p (parsestrLoaded s c.toList).slen.toNat (parsestrLoaded s c.toList).readSB = parse p 16 c := by
  rw [parsestrLoaded_slen_toNat, parsestrLoaded_readSB, charsOfWord_sinOfString_toList, Vector.length_toList]
  rfl

/-- The state in which the second command of FMTRAW runs (`run_fmtraw`). -/
def fmtrawLoaded (s : State) (v : RecWord) : State :=
  ((Effect.record v).apply s).accept (portsOfWord (encode .format)) s.inbox

theorem run_fmtraw (s : State) (v : RecWord) :
    core.run 2 (s.withProgram [.fmtraw v]) = .next ((effect .format (fmtrawLoaded s v)).apply (fmtrawLoaded s v)) :=
  run_two_commands rfl (decode_encode .ldraw) (decode_encode .format) rfl

theorem fmtrawLoaded_readREC_toNat (s : State) (v : RecWord) :
    (fmtrawLoaded s v).readREC.toNat = v.toNat % 2 ^ 74 := by
  have hrec : (fmtrawLoaded s v).readREC = (v.setWidth 74).setWidth 80 := s.writeREC_readREC v
  rw [hrec, BitVec.toNat_setWidth, BitVec.toNat_setWidth]
  omega

theorem wellFormedRecord_iff (r : RecWord) :
    wellFormedRecord r = true ↔ (yearField r).toNat ≤ 99 ∧ (mnumField r).toNat ≤ 999 := by
  simp [wellFormedRecord]

/-- The padding bits, which LDRAW drops, do not make a record well formed or not. -/
theorem wellFormedRecord_fmtrawLoaded (s : State) (v : RecWord) :
    wellFormedRecord (fmtrawLoaded s v).readREC = true ↔ (yearField v).toNat ≤ 99 ∧ (mnumField v).toNat ≤ 999 := by
  have year (r : RecWord) : (yearField r).toNat = r.toNat / 2 ^ 30 % 2 ^ 7 := toNat_extractLsb'_eq_div r 30 7
  have mnum (r : RecWord) : (mnumField r).toNat = r.toNat / 2 ^ 5 % 2 ^ 10 := toNat_extractLsb'_eq_div r 5 10
  rw [wellFormedRecord_iff, year, mnum, year, mnum, fmtrawLoaded_readREC_toNat]
  omega

/-- FORMAT of a well-formed record writes its string (43_codec.md R178). -/
theorem apply_effect_format_of_wellFormed {s : State} (hrv : s.rv = true) (hwf : wellFormedRecord s.readREC = true) :
    (∀ i : Fin 16, ((effect .format s).apply s).sb.cell i = (format s.readREC)[i]) ∧
      ((effect .format s).apply s).slen = 16#8 ∧ ((effect .format s).apply s).st = .ok := by
  have heffect : effect .format s = .string (format s.readREC) 16#8 := if_pos (by rw [hrv, hwf]; rfl)
  rw [heffect]
  exact ⟨s.writeSB_cell _, rfl, rfl⟩

/-- FORMAT of a record that is not well formed is refused (43_codec.md R178). -/
theorem apply_effect_format_of_not_wellFormed {s : State} (hwf : ¬wellFormedRecord s.readREC = true) :
    SameString s ((effect .format s).apply s) ∧ ((effect .format s).apply s).st = .badOperand := by
  have heffect : effect .format s = .refuse := if_neg (by simp [hwf])
  obtain ⟨hst, -, -, hstring, -⟩ := onlyStatus_raise s .badOperand
  rw [heffect]
  exact ⟨hstring, hst⟩

/-! ### The obligations -/

/-- Settles O1: the decoder cuts the encoder's word into the opcode and the operand that it was made of. -/
theorem decodeOfEncodeIsIdentity : Obligations.DecodeOfEncodeIsIdentity := fun i _ => decode_encode i

/-- Settles O2: the word is the opcode and the immediate that the decoder read. -/
theorem encodeOfDecodeIsIdentity : Obligations.EncodeOfDecodeIsIdentity := fun _ _ => encode_of_decode

/-- Settles O3: the words that select a row are the encoder's words of its commands, and the encoder is injective. -/
theorem decodeSelectsTheOpcodeRow : Obligations.DecodeSelectsTheOpcodeRow := by
  intro w
  refine ⟨⟨?_, ?_⟩, ?_, ?_⟩
  · rintro ⟨i, hdec⟩
    rw [← encode_of_decode hdec]
    exact ⟨i.row, row_mem_opTable i, encode_and_row_mask i⟩
  · rintro ⟨row, hrow, hsel⟩
    obtain ⟨i, -, henc⟩ := (selects_row_iff hrow).mp hsel
    exact ⟨i, decode_eq_ok_iff.mpr henc⟩
  · intro a ha b hb hsela hselb
    obtain ⟨i, rfl, henci⟩ := (selects_row_iff ha).mp hsela
    obtain ⟨j, rfl, hencj⟩ := (selects_row_iff hb).mp hselb
    rw [encode_injective (henci.trans hencj.symm)]
  · intro i hdec
    rw [← encode_of_decode hdec]
    exact ⟨row_mem_opTable i, encode_and_row_mask i⟩

/-- Settles O4: a word is illegal for its opcode byte or its reserved byte; the legal words are counted by opcode byte. -/
theorem illegalWordsAreExactlyTheseAndRefused : Obligations.IllegalWordsAreExactlyTheseAndRefused := by
  refine ⟨fun w => ?_, ?_, countP_decode.trans sum_legalImmediates⟩
  · have himm : (RawCommand.ofWord w).imm8 ≠ 0x00#8 ↔ w.toNat % 256 ≠ 0 := by
      rw [← ofWord_imm8_toNat, ne_eq, ← BitVec.toNat_inj]
      rfl
    rw [decode_eq_error_iff, not_legal_iff, takesImmediate?_eq_none_iff, takesImmediate?_eq_false_iff, himm,
      ofWord_op_toNat]
    simp only [or_assoc]
  · rintro s p rest hin ⟨e, hdec⟩
    exact ⟨_, step_illegal hin hdec, rfl⟩

/-- Settles O9: an illegal word ends with its status; a command ends in its effect, which leaves the host's side. -/
theorem everyPresentedWordCompletes : Obligations.EveryPresentedWordCompletes := by
  intro s p rest hin
  cases hdec : decode p.cw with
  | error e => exact ⟨_, step_illegal hin hdec, rfl, rfl⟩
  | ok i => exact ⟨_, (step_command hin hdec).trans (exec_eq_apply i _), (effect i (s.accept p rest)).apply_sameHost _⟩

/-- Settles O53: each pseudo-instruction runs its two commands; the first loads what the second reads, and the second keeps
the rest of what was loaded. -/
theorem parsestrIsParse : Obligations.ParsestrIsParse := by
  refine ⟨fun s l => ⟨_, run_parsestr s l, ?_⟩, fun s v => ⟨_, run_fmtraw s v, ?_⟩⟩
  · obtain ⟨hcell, hslen⟩ := effect_sameString (i := .parse) (by decide) (by decide) (parsestrLoaded s l)
    have hres := effect_res (i := .parse) (by decide) (parsestrLoaded s l)
    obtain ⟨-, hinbox⟩ := (effect .parse (parsestrLoaded s l)).apply_sameHost (parsestrLoaded s l)
    refine ⟨hinbox.trans (parsestrLoaded_inbox s l), hres.trans (parsestrLoaded_res s l),
      fun i => (hcell i).trans (parsestrLoaded_cell s l i), ?_, ?_, ?_, ?_⟩
    · rw [hslen, parsestrLoaded_slen_toNat]
    · rintro c r rfl hparse
      exact apply_effect_parse_of_ok ((parse_parsestrLoaded _ s c).trans hparse)
    · rintro c rfl hparse
      exact apply_effect_parse_of_error ((parse_parsestrLoaded _ s c).trans hparse)
    · intro hlen
      refine apply_effect_parse_of_error (parse_of_length_ne _ _ ?_)
      rw [parsestrLoaded_slen_toNat]
      omega
  · obtain ⟨hrec, hrv⟩ := effect_sameRecord (i := .format) (by decide) (fmtrawLoaded s v)
    have hres := effect_res (i := .format) (by decide) (fmtrawLoaded s v)
    obtain ⟨-, hinbox⟩ := (effect .format (fmtrawLoaded s v)).apply_sameHost (fmtrawLoaded s v)
    have hwf := wellFormedRecord_fmtrawLoaded s v
    refine ⟨hinbox, hres, ?_, hrv, fun hrange => ?_, fun hrange => ?_⟩
    · rw [hrec, fmtrawLoaded_readREC_toNat]
    · rw [hrec]
      exact apply_effect_format_of_wellFormed rfl (hwf.mpr hrange)
    · have hbad : ¬wellFormedRecord (fmtrawLoaded s v).readREC = true := fun h => by
        obtain ⟨hyear, hmnum⟩ := hwf.mp h
        omega
      exact apply_effect_format_of_not_wellFormed hbad

/-- Settles O5: the legal words are the encoder's. -/
theorem wordsOfTheSpecDecode : Obligations.WordsOfTheSpecDecode :=
  ⟨decode_encode .nop, decode_encode .ldstr, decode_encode .ldraw, decode_encode (.l2i 0x52), decode_encode (.i2l 0x1A),
    decode_encode (.l2m 0x48), decode_encode (.m2l 0x0D), decode_encode (.d2l 0x33), decode_encode (.l2d 0x50),
    decode_encode .emask, decode_encode .parse, decode_encode .format, decode_encode .gmuni, by decide, by decide,
    by decide⟩

end Sys2Proof.Machine

/-!
The transfer family (40_transfer.md). A load stores what its payload ports carry, a string by its lanes and a record by its
low 74 bits, and keeps every register outside its row; NOP has one word and no effect.
-/

namespace Sys2Proof.Machine

/-! ### What the payload ports carry (10_state.md R31, R32) -/

@[simp] theorem charsOfWord_getElem (v : StrWord) (i : Fin 16) : (charsOfWord v)[i] = v.extractLsb' (8 * i.val) 8 := by
  simp [charsOfWord, lane]

/-- The record register holds bits 73:0 of what is written to it (10_state.md R21). -/
theorem State.writeREC_readREC_toNat (s : State) (v : RecWord) : (s.writeREC v).readREC.toNat = v.toNat % 2 ^ 74 := by
  rw [s.writeREC_readREC, BitVec.toNat_setWidth_of_le (by decide), BitVec.toNat_setWidth]

/-- LDSTR puts lane i of `SIN` in cell i (40_transfer.md R111). -/
theorem apply_effect_ldstr_cell (s : State) (i : Fin 16) :
    ((effect .ldstr s).apply s).sb.cell i = s.ports.sin.extractLsb' (8 * i.val) 8 := by
  simp only [effect, Effect.apply, State.writeST_sb, State.writeSLEN_sb, State.writeSB_cell, charsOfWord_getElem]

/-! ### A low byte that must be 0 (30_encoding.md R84) -/

theorem decodeReserved_of_ne {r : RawCommand} (i : Instr) (h : r.imm8 ≠ 0x00#8) :
    decodeReserved r i = .error (.reservedNotZero r.op r.imm8) := if_neg h

/-! ### The obligations -/

/-- Settles O27: the effect is the string of the ports `SIN` and `LIN`, and `RES`, `REC` and `RV` are outside the row of
LDSTR. -/
theorem ldstrLoadsTheStringBuffer : Obligations.LdstrLoadsTheStringBuffer := by
  refine ⟨decode_encode .ldstr, fun s => ⟨_, exec_eq_apply .ldstr s, apply_effect_ldstr_cell s, rfl, rfl, ?_, ?_, ?_⟩⟩
  · exact effect_res (by decide) s
  · exact effect_sameRecord (by decide) s
  · exact (effect .ldstr s).apply_sameHost s

/-- Settles O26: NOP has no effect, and a low byte other than 0 is refused with the opcode byte 0x00. -/
theorem nopChangesNothing : Obligations.NopChangesNothing :=
  ⟨exec_eq_apply .nop, decode_encode .nop, fun x hx =>
    ⟨_, (decode_commandWord 0x00#8 x).trans (decodeReserved_of_ne .nop hx)⟩⟩

/-- Settles O28: the effect is the record of the port `DIN`, and `RES`, `SB` and `SLEN` are outside the row of LDRAW. -/
theorem ldrawLoadsTheRecord : Obligations.LdrawLoadsTheRecord := by
  refine ⟨decode_encode .ldraw, fun s => ⟨_, exec_eq_apply .ldraw s, ?_, rfl, rfl, ?_, ?_, ?_⟩⟩
  · exact s.writeREC_readREC_toNat s.ports.din
  · exact effect_res (by decide) s
  · exact effect_sameString (by decide) (by decide) s
  · exact (effect .ldraw s).apply_sameHost s

end Sys2Proof.Machine

/-!
The alphabet family (41_alphabet_tables.md). A table command yields the table's value of its immediate. Each table is said once:
the letter tables as arithmetic on the folded code, the month tables as places in the list of month letters.
-/

namespace Sys2Proof.Machine

/-! ### Commands that yield a value of their immediate (30_encoding.md R82, R90) -/

/-- A command word is its opcode byte, shifted, or its immediate (30_encoding.md R80). -/
theorem commandWord_eq_or (op imm8 : Byte) : commandWord op imm8 = commandWord op 0x00#8 ||| imm8.setWidth 16 := by
  have himm : imm8.setWidth 16 = 0x00#8 ++ imm8 := BitVec.setWidth_eq_append (by decide)
  rw [himm, commandWord, commandWord, BitVec.or_append, BitVec.or_zero, BitVec.zero_or]

/-- A command whose effect is a value of its immediate, and whose result has a property: its word decodes, and it yields a
result with that property in every state. -/
theorem immediate_yields {i : Instr} {op imm8 : Byte} {v : ResWord} (henc : encode i = commandWord op imm8)
    (heffect : ∀ s, effect i s = .result v) {P : ResWord → Prop} (hv : P v) :
    decode (commandWord op 0x00#8 ||| imm8.setWidth 16) = .ok i ∧
      ∀ s, ∃ t, exec i s = .next t ∧ OnlyResult s t ∧ P t.res := by
  refine ⟨?_, fun s => ⟨s.yieldResult v, ?_, onlyResult_yieldResult s v, hv⟩⟩
  · rw [← commandWord_eq_or, ← henc, decode_encode]
  · rw [exec_eq_apply, heffect, Effect.apply]

/-! ### Letters and their indices (41_alphabet_tables.md R120, R121) -/

/-- A letter folds into the upper-case range. -/
theorem upper_toNat_bounds_of_isalpha {c : Byte} (h : isalpha c = true) :
    0x41 ≤ (upper c).toNat ∧ (upper c).toNat ≤ 0x5A := by
  rw [isalpha_iff] at h
  rw [upper_toNat]
  split <;> omega

theorem l2i_toNat_of_isalpha {c : Byte} (h : isalpha c = true) : (l2i c).toNat = (upper c).toNat - 0x41 := by
  have hbounds := upper_toNat_bounds_of_isalpha h
  rw [l2i, if_pos h, BitVec.toNat_setWidth]
  bv_omega

theorem l2i_of_not_isalpha {c : Byte} (h : ¬isalpha c = true) : l2i c = 0#5 := if_neg h

theorem l2i_toNat (c : Byte) :
    (l2i c).toNat =
      if 0x41 ≤ c.toNat ∧ c.toNat ≤ 0x5A then c.toNat - 0x41
      else if 0x61 ≤ c.toNat ∧ c.toNat ≤ 0x7A then c.toNat - 0x61
      else 0 := by
  by_cases h : isalpha c = true
  · rw [l2i_toNat_of_isalpha h, upper_toNat]
    rw [isalpha_iff] at h
    split_ifs <;> omega
  · rw [l2i_of_not_isalpha h]
    rw [isalpha_iff, not_or] at h
    rw [if_neg h.1, if_neg h.2]
    rfl

theorem l2i_toNat_le (c : Byte) : (l2i c).toNat ≤ 25 := by
  rw [l2i_toNat]
  split_ifs <;> omega

theorem i2l_toNat (n : Nat) : (i2l n).toNat = if n ≤ 25 then 0x41 + n else 0x61 := by
  by_cases h : n ≤ 25
  · rw [i2l, if_pos h, if_pos h, BitVec.toNat_ofNat]
    omega
  · rw [i2l, if_neg h, if_neg h]
    rfl

theorem l2i_i2l_toNat (n : Nat) : (l2i (i2l n)).toNat = if n ≤ 25 then n else 0 := by
  rw [l2i_toNat, i2l_toNat]
  split_ifs <;> omega

theorem i2l_l2i_of_isalpha {c : Byte} (h : isalpha c = true) : i2l (l2i c).toNat = upper c := by
  have hbounds := upper_toNat_bounds_of_isalpha h
  apply BitVec.eq_of_toNat_eq
  rw [i2l_toNat, if_pos (l2i_toNat_le c), l2i_toNat_of_isalpha h]
  omega

/-! ### Month letters (41_alphabet_tables.md R122, R123) -/

/-- The month letters in the order of their months (`l2m_of_upper_eq`, `m2l_eq_getD`). -/
def monthLetters : List Byte :=
  [0x41#8, 0x42#8, 0x43#8, 0x44#8, 0x45#8, 0x48#8, 0x4C#8, 0x4D#8, 0x50#8, 0x52#8, 0x53#8, 0x54#8]

theorem upper_monthLetter (k : Fin 12) :
    upper monthLetters[k]! = monthLetters[k]! ∧ upper (monthLetters[k]! + 0x20#8) = monthLetters[k]! := by
  revert k; decide

theorem exists_eq_of_mem_monthLetters {u : Byte} (h : u ∈ monthLetters) : ∃ k : Fin 12, u = monthLetters[k]! := by
  obtain ⟨k, hk, rfl⟩ := List.getElem_of_mem h
  exact ⟨⟨k, hk⟩, (getElem!_pos monthLetters k hk).symm⟩

theorem l2m_of_upper_eq {c : Byte} {k : Fin 12} (h : upper c = monthLetters[k]!) : (l2m c).toNat = k.val + 1 := by
  rw [l2m, h]
  clear h
  revert k; decide

theorem l2m_of_upper_notMem {c : Byte} (h : upper c ∉ monthLetters) : l2m c = 0#4 := by
  unfold l2m
  split
  case h_13 => rfl
  all_goals
    rename_i hletter
    exact absurd (show upper c ∈ monthLetters by rw [hletter]; decide) h

theorem l2m_toNat_le (c : Byte) : (l2m c).toNat ≤ 12 := by
  by_cases h : upper c ∈ monthLetters
  · obtain ⟨k, hk⟩ := exists_eq_of_mem_monthLetters h
    rw [l2m_of_upper_eq hk]
    omega
  · rw [l2m_of_upper_notMem h]
    decide

/-- `m2l` reads the list of month letters, with `NUL` at place 0 and past the end. -/
theorem m2l_eq_getD (n : Nat) : m2l n = (Config.NUL :: monthLetters).getD n Config.NUL := by
  by_cases h : n < 13
  · have hlisted : ∀ k : Fin 13, m2l k.val = (Config.NUL :: monthLetters).getD k.val Config.NUL := by decide
    exact hlisted ⟨n, h⟩
  · rw [List.getD_eq_default _ _ (Nat.le_of_not_lt h)]
    unfold m2l
    split
    case h_13 => rfl
    all_goals exact absurd (by decide) h

theorem m2l_month (k : Fin 12) : m2l (k.val + 1) = monthLetters[k]! := by
  revert k; decide

/-! ### The obligations -/

/-- Settles O30: the effect is the index of the immediate. -/
theorem l2iYieldsTheLetterIndex : Obligations.L2iYieldsTheLetterIndex := fun c =>
  immediate_yields (op := 0x10#8) (P := fun v => v.toNat = _) rfl (fun _ => rfl)
    ((BitVec.toNat_setWidth_of_le (by decide)).trans (l2i_toNat c))

/-- Settles O31: the effect is the letter of the immediate. -/
theorem i2lYieldsTheLetter : Obligations.I2lYieldsTheLetter := fun n =>
  immediate_yields (op := 0x11#8) (P := fun v => v.toNat = _) rfl (fun _ => rfl)
    ((BitVec.toNat_setWidth_of_le (by decide)).trans (i2l_toNat n.toNat))

/-- Settles O32: a month letter in either case folds to its entry in the list of month letters; a code that folds into the
list is one of these. -/
theorem l2mYieldsTheMonth : Obligations.L2mYieldsTheMonth := by
  refine fun c => immediate_yields (op := 0x12#8) (v := (l2m c).setWidth 48)
    (P := fun v => (∀ k : Fin 12, c = monthLetters[k]! ∨ c = monthLetters[k]! + 0x20 → v.toNat = k.val + 1) ∧
      ((∀ m ∈ monthLetters, c ≠ m ∧ c ≠ m + 0x20) → v = 0)) rfl (fun _ => rfl) ⟨fun k hc => ?_, fun hnone => ?_⟩
  · obtain ⟨hupper, hlower⟩ := upper_monthLetter k
    rw [BitVec.toNat_setWidth_of_le (by decide)]
    rcases hc with rfl | rfl
    · exact l2m_of_upper_eq hupper
    · exact l2m_of_upper_eq hlower
  · have hnot : upper c ∉ monthLetters := fun hmem => by
      obtain ⟨hne, hne'⟩ := hnone (upper c) hmem
      exact (eq_or_eq_add_of_upper_eq rfl).elim hne hne'
    rw [l2m_of_upper_notMem hnot]
    rfl

/-- Settles O33: widening each entry of the list of month letters gives the list of the statement. -/
theorem m2lYieldsTheMonthLetter : Obligations.M2lYieldsTheMonthLetter := by
  refine fun n => immediate_yields (op := 0x13#8) (P := fun v => v = _) rfl (fun _ => rfl) ?_
  rw [m2l_eq_getD]
  exact (List.getD_map (Config.NUL :: monthLetters) Config.NUL (BitVec.setWidth 48)).symm

/-- Settles O34: (a) and (b) go through the list of month letters, (c) and (d) through the folded code, (e) is the range of
each table. -/
theorem alphabetTableLaws : Obligations.AlphabetTableLaws := by
  refine ⟨fun n hlo hhi => ?_, fun c => ⟨fun hmem => ?_, fun hnot => ?_⟩, fun n => ⟨fun hle => ?_, fun hgt => ?_⟩,
    fun c => ⟨i2l_l2i_of_isalpha, fun hnot => ?_⟩, fun c => ⟨l2i_toNat_le c, l2m_toNat_le c⟩⟩
  · obtain ⟨k, rfl⟩ : ∃ k : Fin 12, n = k.val + 1 := ⟨⟨n - 1, by omega⟩, by simp; omega⟩
    obtain ⟨hupper, -⟩ := upper_monthLetter k
    rw [m2l_month]
    exact l2m_of_upper_eq hupper
  · obtain ⟨k, hk⟩ := exists_eq_of_mem_monthLetters hmem
    rw [l2m_of_upper_eq hk, m2l_month, hk]
  · rw [l2m_of_upper_notMem hnot]
    rfl
  · rw [l2i_i2l_toNat, if_pos hle]
  · apply BitVec.eq_of_toNat_eq
    rw [l2i_i2l_toNat, if_neg (Nat.not_le_of_lt hgt)]
    rfl
  · rw [l2i_of_not_isalpha (by simp [hnot])]
    rfl

end Sys2Proof.Machine

/-!
The omocodia family (42_omocodia.md). The substitution table pairs the digit character of each digit with its letter, and D2L and
L2D read it in its two directions. The mask is said once as seven bits and once as a number: what it depends on, and the mask of a
formatted record, are read off the bits, and EMASK's result off the number.
-/

namespace Sys2Proof.Machine

/-! ### A command that yields a result or is refused (10_state.md R28; 60_exceptions.md R226) -/

theorem exec_of_effect_result {i : Instr} {s : State} {v : ResWord} (h : effect i s = .result v) :
    exec i s = .next (s.yieldResult v) := by
  rw [exec_eq_apply, h, Effect.apply]

theorem refused_of_effect_refuse {i : Instr} {s : State} (h : effect i s = .refuse) :
    ∃ t, exec i s = .next t ∧ OnlyStatus .badOperand s t :=
  ⟨s.raise .badOperand, by rw [exec_eq_apply, h, Effect.apply], onlyStatus_raise s .badOperand⟩

/-! ### Digits to letters (42_omocodia.md R140) -/

/-- A code in the digit range is the digit character of its place in the range. -/
theorem eq_chr_of_toNat_eq {c : Byte} {d : Fin 10} (h : c.toNat = 0x30 + d.val) : c = chr d := by
  apply BitVec.eq_of_toNat_eq
  rw [h, chr, BitVec.toNat_ofNat]
  omega

theorem exists_eq_chr_of_isdigit {c : Byte} (h : isdigit c = true) : ∃ d : Fin 10, c = chr d := by
  rw [isdigit_iff] at h
  exact ⟨⟨c.toNat - 0x30, by omega⟩, eq_chr_of_toNat_eq (by simp; omega)⟩

theorem chr_toNat (d : Fin 10) : (chr d).toNat = 0x30 + d.val := by
  revert d; decide

@[simp] theorem d2l_chr (d : Fin 10) : d2l (chr d) = some (substitutionLetter d) := by
  revert d; decide

theorem d2l_of_not_isdigit {c : Byte} (h : ¬isdigit c = true) : d2l c = none := by
  unfold d2l
  split
  case h_11 => rfl
  all_goals exact absurd (by decide) h

theorem d2l_eq_some_iff {c x : Byte} : d2l c = some x ↔ ∃ d : Fin 10, c = chr d ∧ x = substitutionLetter d := by
  constructor
  · intro h
    by_cases hc : isdigit c = true
    · obtain ⟨d, rfl⟩ := exists_eq_chr_of_isdigit hc
      rw [d2l_chr] at h
      exact ⟨d, rfl, (Option.some.inj h).symm⟩
    · rw [d2l_of_not_isdigit hc] at h
      cases h
  · rintro ⟨d, rfl, rfl⟩
    exact d2l_chr d

/-! ### Substitution letters (42_omocodia.md R141, R142) -/

/-- The substitution letters in the order of their digits (`substitutionLetters_getElem`). -/
def substitutionLetters : List Byte :=
  [0x4C#8, 0x4D#8, 0x4E#8, 0x50#8, 0x51#8, 0x52#8, 0x53#8, 0x54#8, 0x55#8, 0x56#8]

theorem substitutionLetters_getElem (d : Fin 10) : substitutionLetters[d]! = substitutionLetter d := by
  revert d; decide

theorem mem_substitutionLetters_iff {u : Byte} : u ∈ substitutionLetters ↔ ∃ d : Fin 10, u = substitutionLetter d := by
  have hlist : substitutionLetters = List.ofFn substitutionLetter := rfl
  rw [hlist, List.mem_ofFn]
  exact exists_congr fun d => eq_comm

theorem substitutionLetter_injective : Function.Injective substitutionLetter := by
  unfold Function.Injective; decide

theorem isdigit_substitutionLetter (d : Fin 10) : isdigit (substitutionLetter d) = false := by
  revert d; decide

theorem l2d_of_upper_eq {c : Byte} {d : Fin 10} (h : upper c = substitutionLetter d) : l2d c = chr d := by
  rw [l2d, h]
  clear h
  revert d; decide

/-- Every code that folds to none of the ten letters gives `NUL`. -/
theorem l2d_of_upper_notMem {c : Byte} (h : upper c ∉ substitutionLetters) : l2d c = Config.NUL := by
  rcases l2d_cases c with hnul | ⟨d, hd, -⟩
  · exact hnul
  · exact absurd (mem_substitutionLetters_iff.mpr ⟨d, hd⟩) h

/-! ### The mask (42_omocodia.md R143) -/

theorem isalpha_of_isdigit {c : Byte} (h : isdigit c = true) : isalpha c = false := by
  obtain ⟨d, rfl⟩ := exists_eq_chr_of_isdigit h
  exact isalpha_chr d

/-- A rendered digit is a letter exactly when its mask bit is set (43_codec.md R174). -/
@[simp] theorem isalpha_substituted (d : Fin 10) (b : Bool) : isalpha (substituted d b) = b := by
  obtain ⟨hletter, -⟩ := isalpha_substitutionLetter d
  cases b with
  | false => exact isalpha_chr d
  | true => exact hletter

/-- The mask is the seven bits that tell, per eligible position, whether a letter stands there. -/
theorem emask_eq_iff {s : Chars} {m : BitVec 7} :
    emask s = m ↔ ∀ k : Fin 7, isalpha s[eligiblePositions[k]] = m.getLsbD (6 - k.val) := by
  constructor
  · rintro rfl k
    exact (emask_getLsbD s k).symm
  · intro h
    refine BitVec.eq_of_getLsbD_eq fun b hb => ?_
    have hbit := (emask_getLsbD s ⟨6 - b, by omega⟩).trans (h ⟨6 - b, by omega⟩)
    rwa [show 6 - (6 - b) = b by omega] at hbit

/-- The mask bits of a record are the letters that format renders for them (43_codec.md R175). -/
theorem isalpha_format_eligiblePosition (r : RecWord) (k : Fin 7) :
    isalpha (format r)[eligiblePositions[k]] = (omaskField r).getLsbD (6 - k.val) := by
  fin_cases k <;> exact isalpha_substituted _ _

/-- A mask round doubles the mask, drops its highest bit and adds the letter's bit. -/
theorem maskShiftIn_toNat (m : BitVec 7) (c : Byte) :
    (maskShiftIn m c).toNat = 2 * m.toNat % 128 + (isalpha c).toNat := by
  have hdisjoint : m <<< 1 &&& 1#7 = 0#7 := by
    ext i
    cases i <;> simp
  cases h : isalpha c with
  | false => simp [maskShiftIn, h, Nat.shiftLeft_eq, Nat.mul_comm]
  | true =>
    rw [maskShiftIn, if_pos h, ← BitVec.add_eq_or_of_and_eq_zero _ _ hdisjoint]
    simp only [BitVec.toNat_add, BitVec.toNat_shiftLeft, Nat.shiftLeft_eq, BitVec.toNat_ofNat, Bool.toNat_true]
    omega

/-- The mask as a number: the first eligible position has the highest weight. -/
theorem emask_toNat (s : Chars) :
    (emask s).toNat =
      64 * (isalpha s[(6 : Fin 16)]).toNat + 32 * (isalpha s[(7 : Fin 16)]).toNat +
      16 * (isalpha s[(9 : Fin 16)]).toNat + 8 * (isalpha s[(10 : Fin 16)]).toNat +
      4 * (isalpha s[(12 : Fin 16)]).toNat + 2 * (isalpha s[(13 : Fin 16)]).toNat +
      (isalpha s[(14 : Fin 16)]).toNat := by
  have hbit (p : Fin 16) : (isalpha s[p]).toNat ≤ 1 := Bool.toNat_le _
  have h6 := hbit 6
  have h7 := hbit 7
  have h9 := hbit 9
  have h10 := hbit 10
  have h12 := hbit 12
  have h13 := hbit 13
  simp only [emask, eligiblePositions, List.foldl, maskShiftIn_toNat, BitVec.toNat_zero]
  omega

/-! ### The obligations -/

/-- Settles O38: with length 16 the effect is the mask, whose number is the sum; with any other length it is a refusal. -/
theorem emaskYieldsTheMask : Obligations.EmaskYieldsTheMask := by
  refine ⟨decode_encode .emask, fun s => ⟨fun hlen => ?_, fun hlen => refused_of_effect_refuse (if_neg hlen)⟩⟩
  refine ⟨_, exec_of_effect_result (if_pos hlen), onlyResult_yieldResult s _, ?_⟩
  rw [State.yieldResult_res, BitVec.toNat_setWidth_of_le (by decide), emask_toNat]
  simp only [State.readSB_getElem]

/-- Settles O39: each property is an equation of masks, compared bit by bit; the bits of a formatted record's mask are the bits by
which format chose letters. -/
theorem maskDependsOnlyOnEligiblePositions : Obligations.MaskDependsOnlyOnEligiblePositions := by
  have eligible (k : Fin 7) : eligiblePositions[k] ∈ eligiblePositions := List.getElem_mem _
  refine ⟨fun s t h => ?_, fun s => ⟨fun h => ?_, fun h => ?_⟩, fun r _ => ?_⟩
  · exact emask_eq_iff.mpr fun k => (h _ (eligible k)).trans (emask_getLsbD t k).symm
  · exact emask_eq_iff.mpr fun k => (isalpha_of_isdigit (h _ (eligible k))).trans BitVec.getLsbD_zero.symm
  · have hones (k : Fin 7) : (0x7F#7).getLsbD (6 - k.val) = true := by revert k; decide
    exact emask_eq_iff.mpr fun k => (h _ (eligible k)).trans (hones k).symm
  · exact emask_eq_iff.mpr (isalpha_format_eligiblePosition r)

/-- Settles O35: a code in the digit range is a digit character, and `d2l` is defined on these alone. -/
theorem d2lYieldsTheSubstitutionLetter : Obligations.D2lYieldsTheSubstitutionLetter := by
  have hlist (d : Fin 10) : (substitutionLetter d).setWidth 48 =
      ([0x4C, 0x4D, 0x4E, 0x50, 0x51, 0x52, 0x53, 0x54, 0x55, 0x56] : List ResWord)[d]! := by revert d; decide
  intro c
  have hdecode : decode (commandWord 0x20#8 0x00#8 ||| c.setWidth 16) = .ok (.d2l c) := by
    rw [← commandWord_eq_or]
    exact decode_encode (.d2l c)
  refine ⟨hdecode, fun s => ⟨fun d hc => ?_, fun hc => refused_of_effect_refuse ?_⟩⟩
  · have heffect : effect (.d2l c) s = .result ((substitutionLetter d).setWidth 48) := by
      rw [eq_chr_of_toNat_eq hc, effect, d2l_chr, Option.elim_some]
    exact ⟨_, exec_of_effect_result heffect, onlyResult_yieldResult s _, hlist d⟩
  · rw [effect, d2l_of_not_isdigit (mt (isdigit_iff c).mp hc), Option.elim_none]

/-- Settles O36: a substitution letter in either case gives its digit character; a code that folds to one of the ten is one of
these. -/
theorem l2dYieldsTheDigitCharacter : Obligations.L2dYieldsTheDigitCharacter := by
  refine fun c => immediate_yields (op := 0x21#8) (v := (l2d c).setWidth 48)
    (P := fun v => (∀ d : Fin 10, c = substitutionLetters[d]! ∨ c = substitutionLetters[d]! + 0x20 →
        v.toNat = 0x30 + d.val) ∧
      ((∀ m ∈ substitutionLetters, c ≠ m ∧ c ≠ m + 0x20) → v = 0)) rfl (fun _ => rfl) ⟨fun d hc => ?_, fun hnone => ?_⟩
  · obtain ⟨hupper, hlower⟩ := l2d_substitutionLetter d
    rw [substitutionLetters_getElem] at hc
    rw [BitVec.toNat_setWidth_of_le (by decide), ← chr_toNat d]
    rcases hc with rfl | rfl
    · rw [hupper]
    · exact congrArg BitVec.toNat hlower
  · have hnot : upper c ∉ substitutionLetters := fun hmem => by
      obtain ⟨hne, hne'⟩ := hnone (upper c) hmem
      exact (eq_or_eq_add_of_upper_eq rfl).elim hne hne'
    rw [l2d_of_upper_notMem hnot]
    rfl

/-- Settles O37: a digit is a digit character and a letter of the list is a digit's letter, so each law is one about the table. -/
theorem substitutionTableLaws : Obligations.SubstitutionTableLaws := by
  refine ⟨fun c hc => ?_, fun c hc => ?_, fun a b c ha hb => ?_, fun a c ha => ?_⟩
  · obtain ⟨d, rfl⟩ := exists_eq_chr_of_isdigit hc
    obtain ⟨hupper, -⟩ := l2d_substitutionLetter d
    exact ⟨substitutionLetter d, d2l_chr d, hupper⟩
  · obtain ⟨d, hd⟩ := mem_substitutionLetters_iff.mp hc
    rw [l2d_of_upper_eq hd, d2l_chr, hd]
  · obtain ⟨d, rfl, rfl⟩ := d2l_eq_some_iff.mp ha
    obtain ⟨e, rfl, hletter⟩ := d2l_eq_some_iff.mp hb
    rw [substitutionLetter_injective hletter]
  · obtain ⟨d, -, rfl⟩ := d2l_eq_some_iff.mp ha
    obtain ⟨hletter, -⟩ := isalpha_substitutionLetter d
    exact ⟨isdigit_substitutionLetter d, hletter⟩

end Sys2Proof.Machine

/-!
The codec family (43_codec.md). A record is the assembly of its fields, and a string is eight letters, a month letter and three
numbers written in digits; `parse` and `format` are compared part by part. Both round trips go through these parts: a part of a
canonical record survives being written and read, and a part of a string survives being read and written exactly when it is in
its alphabet.
-/

namespace Sys2Proof.Machine

/-! ### Numbers of two and three digits (00_scope.md R10) -/

theorem digitValue_le (c : Byte) : digitValue c ≤ 9 := by
  unfold digitValue
  split
  next h => rw [isdigit_iff] at h; omega
  next => omega

theorem decn_le_decimalSum (f : NumericFallback) (cs : List Byte) : decn f cs ≤ decimalSum cs := by
  cases f with
  | fieldZero =>
    simp only [decn]
    split
    · exact le_rfl
    · exact Nat.zero_le _
  | charZero => exact le_rfl

theorem dec2_le (f : NumericFallback) (a b : Byte) : dec2 f a b ≤ 99 := by
  refine (decn_le_decimalSum f [a, b]).trans ?_
  have ha := digitValue_le a
  have hb := digitValue_le b
  simp [decimalSum]
  omega

theorem dec3_le (f : NumericFallback) (a b c : Byte) : dec3 f a b c ≤ 999 := by
  refine (decn_le_decimalSum f [a, b, c]).trans ?_
  have ha := digitValue_le a
  have hb := digitValue_le b
  have hc := digitValue_le c
  simp [decimalSum]
  omega

theorem parseYear_le (f : NumericFallback) (s : Chars) : parseYear f s ≤ 99 := dec2_le f _ _

theorem dayGenderValue_le (f : NumericFallback) (s : Chars) : dayGenderValue f s ≤ 99 := dec2_le f _ _

theorem parseMnum_le (f : NumericFallback) (s : Chars) : parseMnum f s ≤ 999 := dec3_le f _ _ _

theorem dec2_chr_dig {n : Nat} (f : NumericFallback) (hn : n ≤ 99) : dec2 f (chr (dig n 1)) (chr (dig n 0)) = n := by
  rw [dec2_chr]
  simp only [dig]
  omega

theorem dec3_chr_dig {n : Nat} (f : NumericFallback) (hn : n ≤ 999) :
    dec3 f (chr (dig n 2)) (chr (dig n 1)) (chr (dig n 0)) = n := by
  rw [dec3_chr]
  simp only [dig]
  omega

theorem dig_of_dec2_chr (f : NumericFallback) (a b : Fin 10) :
    dig (dec2 f (chr a) (chr b)) 1 = a ∧ dig (dec2 f (chr a) (chr b)) 0 = b := by
  rw [dec2_chr]
  simp only [dig, Fin.ext_iff]
  omega

theorem dig_of_dec3_chr (f : NumericFallback) (a b c : Fin 10) :
    dig (dec3 f (chr a) (chr b) (chr c)) 2 = a ∧ dig (dec3 f (chr a) (chr b) (chr c)) 1 = b ∧
      dig (dec3 f (chr a) (chr b) (chr c)) 0 = c := by
  rw [dec3_chr]
  simp only [dig, Fin.ext_iff]
  omega

/-! ### A rendered digit (43_codec.md R174) -/

theorem substituted_eq_ite (d : Fin 10) (b : Bool) :
    substituted d b = if b then substitutionLetters[d.val]! else BitVec.ofNat 8 (0x30 + d.val) := by
  have hletter : substitutionLetters[d.val]! = substitutionLetter d := substitutionLetters_getElem d
  rw [hletter]
  rfl

theorem isupper_or_isdigit_substituted (d : Fin 10) (b : Bool) :
    isupper (substituted d b) = true ∨ isdigit (substituted d b) = true := by
  revert d b; decide

/-- Parse reads a rendered digit as that digit, whether or not it was substituted. -/
theorem plainCharacter_substituted (d : Fin 10) (b : Bool) : plainCharacter (substituted d b) = chr d := by
  cases b with
  | false => exact plainCharacter_of_standsForDigit (.inl rfl)
  | true => exact plainCharacter_of_standsForDigit (.inr (.inl rfl))

/-- The alphabet of a digit-eligible position: a digit, or an upper-case substitution letter (43_codec.md R184). -/
def InDigitAlphabet (c : Byte) : Prop := isdigit c = true ∨ c ∈ substitutionLetters

/-- The characters that format can write for a digit are the alphabet of the position. -/
theorem inDigitAlphabet_iff {c : Byte} : InDigitAlphabet c ↔ ∃ d : Fin 10, substituted d (isalpha c) = c := by
  constructor
  · rintro (hdigit | hletter)
    · obtain ⟨d, rfl⟩ := exists_eq_chr_of_isdigit hdigit
      exact ⟨d, by rw [isalpha_chr]; rfl⟩
    · obtain ⟨d, rfl⟩ := mem_substitutionLetters_iff.mp hletter
      obtain ⟨halpha, -⟩ := isalpha_substitutionLetter d
      exact ⟨d, by rw [halpha]; rfl⟩
  · rintro ⟨d, hd⟩
    cases halpha : isalpha c with
    | false => exact .inl (by rw [← hd, halpha]; exact isdigit_chr d)
    | true => exact .inr (mem_substitutionLetters_iff.mpr ⟨d, by rw [← hd, halpha]; rfl⟩)

theorem plainCharacter_of_substituted_eq {d : Fin 10} {c : Byte} (h : substituted d (isalpha c) = c) :
    plainCharacter c = chr d := by
  rw [← h, plainCharacter_substituted]

/-- A two-digit number is written as the characters it was read from exactly when they are in the alphabet and the number is the
one read. -/
theorem rendered_pair_iff (f : NumericFallback) {n : Nat} {a b : Byte} (hn : n ≤ 99) :
    (substituted (dig n 1) (isalpha a) = a ∧ substituted (dig n 0) (isalpha b) = b) ↔
      (InDigitAlphabet a ∧ InDigitAlphabet b) ∧ n = dec2 f (plainCharacter a) (plainCharacter b) := by
  constructor
  · rintro ⟨ha, hb⟩
    refine ⟨⟨inDigitAlphabet_iff.mpr ⟨_, ha⟩, inDigitAlphabet_iff.mpr ⟨_, hb⟩⟩, ?_⟩
    rw [plainCharacter_of_substituted_eq ha, plainCharacter_of_substituted_eq hb, dec2_chr_dig f hn]
  · rintro ⟨⟨ha, hb⟩, rfl⟩
    obtain ⟨d, ha⟩ := inDigitAlphabet_iff.mp ha
    obtain ⟨e, hb⟩ := inDigitAlphabet_iff.mp hb
    rw [plainCharacter_of_substituted_eq ha, plainCharacter_of_substituted_eq hb]
    obtain ⟨htens, hunits⟩ := dig_of_dec2_chr f d e
    rw [htens, hunits]
    exact ⟨ha, hb⟩

/-- The same for a three-digit number. -/
theorem rendered_triple_iff (f : NumericFallback) {n : Nat} {a b c : Byte} (hn : n ≤ 999) :
    (substituted (dig n 2) (isalpha a) = a ∧ substituted (dig n 1) (isalpha b) = b ∧
      substituted (dig n 0) (isalpha c) = c) ↔
      (InDigitAlphabet a ∧ InDigitAlphabet b ∧ InDigitAlphabet c) ∧
        n = dec3 f (plainCharacter a) (plainCharacter b) (plainCharacter c) := by
  constructor
  · rintro ⟨ha, hb, hc⟩
    refine ⟨⟨inDigitAlphabet_iff.mpr ⟨_, ha⟩, inDigitAlphabet_iff.mpr ⟨_, hb⟩, inDigitAlphabet_iff.mpr ⟨_, hc⟩⟩, ?_⟩
    rw [plainCharacter_of_substituted_eq ha, plainCharacter_of_substituted_eq hb, plainCharacter_of_substituted_eq hc,
      dec3_chr_dig f hn]
  · rintro ⟨⟨ha, hb, hc⟩, rfl⟩
    obtain ⟨d, ha⟩ := inDigitAlphabet_iff.mp ha
    obtain ⟨e, hb⟩ := inDigitAlphabet_iff.mp hb
    obtain ⟨g, hc⟩ := inDigitAlphabet_iff.mp hc
    rw [plainCharacter_of_substituted_eq ha, plainCharacter_of_substituted_eq hb, plainCharacter_of_substituted_eq hc]
    obtain ⟨hhundreds, htens, hunits⟩ := dig_of_dec3_chr f d e g
    rw [hhundreds, htens, hunits]
    exact ⟨ha, hb, hc⟩

/-! ### Day and gender (43_codec.md R166, R167, R175) -/

theorem splitDayGender_male {v : Nat} (h : v ≤ 39) : splitDayGender v = (v, 1#1) := if_neg (by omega)

theorem splitDayGender_female {v : Nat} (h : 40 ≤ v) : splitDayGender v = (v - 40, 0#1) := if_pos (by omega)

theorem storedDay_toNat (o : DayOverflow) (d : BitVec 5) : storedDay o d.toNat = d := by
  have hd := d.isLt
  cases o with
  | truncate => rw [storedDay, Nat.mod_eq_of_lt (by omega), BitVec.ofNat_toNat, BitVec.setWidth_eq]
  | any value => rw [storedDay, if_pos (by omega), BitVec.ofNat_toNat, BitVec.setWidth_eq]

theorem storedDay_of_le (o : DayOverflow) {n : Nat} (h : n ≤ 31) : (storedDay o n).toNat = n := by
  have hn := storedDay_toNat o (BitVec.ofNat 5 n)
  rw [BitVec.toNat_ofNat, Nat.mod_eq_of_lt (by omega)] at hn
  rw [hn, BitVec.toNat_ofNat, Nat.mod_eq_of_lt (by omega)]

theorem storedDay_truncate_toNat (n : Nat) : (storedDay .truncate n).toNat = n % 32 := by
  rw [storedDay, BitVec.toNat_ofNat]
  omega

theorem renderedDayValue_male {r : RecWord} (h : genField r = 1#1) : renderedDayValue r = (dayField r).toNat := if_pos h

theorem renderedDayValue_female {r : RecWord} (h : genField r = 0#1) :
    renderedDayValue r = (dayField r).toNat + 40 := if_neg (by rw [h]; decide)

theorem renderedDayValue_le (r : RecWord) : renderedDayValue r ≤ 71 := by
  have hday := (dayField r).isLt
  rcases BitVec.eq_zero_or_eq_one (genField r) with h | h
  · rw [renderedDayValue_female h]; omega
  · rw [renderedDayValue_male h]; omega

/-- The day value that format renders splits into the day and gender it was made of. -/
theorem splitDayGender_renderedDayValue (r : RecWord) :
    splitDayGender (renderedDayValue r) = ((dayField r).toNat, genField r) := by
  have hday := (dayField r).isLt
  rcases BitVec.eq_zero_or_eq_one (genField r) with h | h
  · rw [renderedDayValue_female h, splitDayGender_female (by omega), h, Nat.add_sub_cancel]
  · rw [renderedDayValue_male h, splitDayGender_male (by omega), h]

/-- A parsed day value is rendered as itself exactly when its day fits the field: the rendered day is at most 31. -/
theorem renderedDayValue_eq_iff {o : DayOverflow} {r : RecWord} {v : Nat} (hv : v ≤ 99)
    (hgen : genField r = (splitDayGender v).2) (hday : dayField r = storedDay o (splitDayGender v).1) :
    renderedDayValue r = v ↔ v ≤ 31 ∨ (40 ≤ v ∧ v ≤ 71) := by
  have hlt := (dayField r).isLt
  by_cases hmale : v ≤ 39
  · rw [splitDayGender_male hmale] at hgen hday
    rw [renderedDayValue_male hgen]
    constructor
    · omega
    · intro h
      rw [hday, storedDay_of_le o (by omega)]
  · rw [splitDayGender_female (by omega)] at hgen hday
    rw [renderedDayValue_female hgen]
    constructor
    · omega
    · intro h
      rw [hday, storedDay_of_le o (by omega)]
      omega

/-! ### A record is the assembly of its fields (10_state.md R22; 43_codec.md R163, R171) -/

/-- An append of bit vectors as a number: the OR of disjoint parts is a sum. -/
theorem toNat_append_eq_add {m n : Nat} (a : BitVec m) (b : BitVec n) :
    (a ++ b).toNat = a.toNat * 2 ^ n + b.toNat := by
  rw [BitVec.toNat_append, ← Nat.shiftLeft_add_eq_or_of_lt b.isLt, Nat.shiftLeft_eq]

theorem append_eq_append_iff {m n : Nat} {a a' : BitVec m} {b b' : BitVec n} :
    a ++ b = a' ++ b' ↔ a = a' ∧ b = b' := by
  constructor
  · intro h
    have hleft := congrArg (BitVec.extractLsb' n m) h
    have hright := congrArg (BitVec.extractLsb' 0 n) h
    rw [BitVec.extractLsb'_append_eq_left, BitVec.extractLsb'_append_eq_left] at hleft
    rw [BitVec.extractLsb'_append_eq_right, BitVec.extractLsb'_append_eq_right] at hright
    exact ⟨hleft, hright⟩
  · rintro ⟨rfl, rfl⟩
    rfl

/-- The fields of a record stand side by side, from bit 73 down. -/
theorem assemble_fields (r : RecWord) :
    assemble (omaskField r) (nameField r) (yearField r) (monField r) (dayField r) (genField r) (mletField r)
      (mnumField r) (chkField r) = r.setWidth 74 := by
  simp only [assemble, omaskField, nameField, yearField, monField, dayField, genField, mletField, mnumField, chkField]
  iterate 8 rw [BitVec.extractLsb'_append_extractLsb'_eq_extractLsb' (by decide)]
  exact (BitVec.setWidth_eq_extractLsb' (by decide)).symm

theorem setWidth_setWidth_of_padField {r : RecWord} (h : padField r = 0#6) : (r.setWidth 74).setWidth 80 = r := by
  have hpad : r.toNat / 2 ^ 74 = 0 := by rw [← padField_toNat, h]; rfl
  apply BitVec.eq_of_toNat_eq
  rw [BitVec.toNat_setWidth, BitVec.toNat_setWidth]
  omega

theorem padField_setWidth (v : SigWord) : padField (v.setWidth 80) = 0#6 := by
  apply BitVec.eq_of_toNat_eq
  rw [padField_toNat, BitVec.toNat_setWidth_of_le (by decide)]
  exact Nat.div_eq_of_lt v.isLt

theorem assemble_toNat (omask : BitVec 7) (name : BitVec 30) (year : BitVec 7) (mon : BitVec 4) (day : BitVec 5)
    (gen : BitVec 1) (mlet : BitVec 5) (mnum : BitVec 10) (chk : BitVec 5) :
    (assemble omask name year mon day gen mlet mnum chk).toNat =
      omask.toNat * 2 ^ 67 + name.toNat * 2 ^ 37 + year.toNat * 2 ^ 30 + mon.toNat * 2 ^ 26 + day.toNat * 2 ^ 21 +
      gen.toNat * 2 ^ 20 + mlet.toNat * 2 ^ 15 + mnum.toNat * 2 ^ 5 + chk.toNat := by
  simp only [assemble, toNat_append_eq_add]
  omega

/-- A record is an assembly exactly when its fields are the parts and its padding is 0. -/
theorem eq_assemble_iff {r : RecWord} {omask : BitVec 7} {name : BitVec 30} {year : BitVec 7} {mon : BitVec 4}
    {day : BitVec 5} {gen : BitVec 1} {mlet : BitVec 5} {mnum : BitVec 10} {chk : BitVec 5} :
    r = (assemble omask name year mon day gen mlet mnum chk).setWidth 80 ↔
      padField r = 0#6 ∧ omaskField r = omask ∧ nameField r = name ∧ yearField r = year ∧ monField r = mon ∧
      dayField r = day ∧ genField r = gen ∧ mletField r = mlet ∧ mnumField r = mnum ∧ chkField r = chk := by
  constructor
  · rintro rfl
    have h := (assemble_fields _).trans
      (BitVec.setWidth_setWidth_of_le (assemble omask name year mon day gen mlet mnum chk) (by decide))
    obtain ⟨h, hchk⟩ := append_eq_append_iff.mp h
    obtain ⟨h, hmnum⟩ := append_eq_append_iff.mp h
    obtain ⟨h, hmlet⟩ := append_eq_append_iff.mp h
    obtain ⟨h, hgen⟩ := append_eq_append_iff.mp h
    obtain ⟨h, hday⟩ := append_eq_append_iff.mp h
    obtain ⟨h, hmon⟩ := append_eq_append_iff.mp h
    obtain ⟨h, hyear⟩ := append_eq_append_iff.mp h
    obtain ⟨homask, hname⟩ := append_eq_append_iff.mp h
    exact ⟨padField_setWidth _, homask, hname, hyear, hmon, hday, hgen, hmlet, hmnum, hchk⟩
  · rintro ⟨hpad, rfl, rfl, rfl, rfl, rfl, rfl, rfl, rfl, rfl⟩
    rw [assemble_fields, setWidth_setWidth_of_padField hpad]

theorem nameGroups_append (r : RecWord) :
    nameGroup r 0 ++ nameGroup r 1 ++ nameGroup r 2 ++ nameGroup r 3 ++ nameGroup r 4 ++ nameGroup r 5 =
      nameField r := by
  simp only [nameGroup]
  iterate 5 rw [BitVec.extractLsb'_append_extractLsb'_eq_extractLsb' (by decide)]
  exact BitVec.extractLsb'_eq_self

/-- A name block is the one read from a string exactly when its six groups are. -/
theorem nameField_eq_parseName_iff {r : RecWord} {s : Chars} :
    nameField r = parseName s ↔ ∀ j : Fin 6, nameGroup r j = l2i s[j] := by
  rw [← nameGroups_append, parseName]
  change @Eq (BitVec (5 + 5 + 5 + 5 + 5 + 5)) _ _ ↔ _
  iterate 5 rw [append_eq_append_iff]
  simp [Fin.forall_fin_succ, and_assoc]

theorem parseName_toNat (s : Chars) :
    (parseName s).toNat =
      (l2i s[0]).toNat * 2 ^ 25 + (l2i s[1]).toNat * 2 ^ 20 + (l2i s[2]).toNat * 2 ^ 15 +
      (l2i s[3]).toNat * 2 ^ 10 + (l2i s[4]).toNat * 2 ^ 5 + (l2i s[5]).toNat := by
  simp only [parseName, toNat_append_eq_add]
  omega

/-! ### The record that a string reads as (43_codec.md R161 to R171) -/

/-- The positions of the eight letters other than the month's: the name block, the municipality letter and the check letter
(43_codec.md R175, R184). -/
def letterPositions : List (Fin 16) := [0, 1, 2, 3, 4, 5, 11, 15]

/-- The letter index that a record holds for each of the letter positions (`format_letterPosition`). -/
def letterIndex (r : RecWord) (k : Fin 8) : BitVec 5 :=
  #v[nameGroup r 0, nameGroup r 1, nameGroup r 2, nameGroup r 3, nameGroup r 4, nameGroup r 5, mletField r,
    chkField r][k]

theorem lettersInRange_iff {r : RecWord} : lettersInRange r = true ↔ ∀ k : Fin 8, (letterIndex r k).toNat ≤ 25 := by
  simp [lettersInRange, letterIndex, Fin.forall_fin_succ, and_assoc]

/-- Each field of the record holds what parse reads for it from the string (`eq_parseOk_iff`). -/
structure FieldsReadFrom (p : CodecParams) (s : Chars) (r : RecWord) : Prop where
  pad : padField r = 0#6
  omask : omaskField r = emask s
  letters : ∀ k : Fin 8, letterIndex r k = l2i s[letterPositions[k]]
  year : (yearField r).toNat = parseYear p.numericFallback s
  mon : monField r = l2m s[8]
  day : dayField r = storedDay p.dayOverflow (splitDayGender (dayGenderValue p.numericFallback s)).1
  gen : genField r = (splitDayGender (dayGenderValue p.numericFallback s)).2
  mnum : (mnumField r).toNat = parseMnum p.numericFallback s

theorem letterIndex_eq_iff {r : RecWord} {s : Chars} :
    (∀ k : Fin 8, letterIndex r k = l2i s[letterPositions[k]]) ↔
      nameField r = parseName s ∧ mletField r = l2i s[11] ∧ chkField r = l2i s[15] := by
  rw [nameField_eq_parseName_iff]
  simp [letterIndex, letterPositions, Fin.forall_fin_succ, and_assoc]

theorem eq_ofNat_iff {w n : Nat} {v : BitVec w} (hn : n < 2 ^ w) : v = BitVec.ofNat w n ↔ v.toNat = n := by
  rw [← BitVec.toNat_inj, BitVec.toNat_ofNat, Nat.mod_eq_of_lt hn]

theorem eq_parseOk_iff {p : CodecParams} {s : Chars} {r : RecWord} :
    r = (parseOk p s).setWidth 80 ↔ FieldsReadFrom p s r := by
  have hyear := parseYear_le p.numericFallback s
  have hmnum := parseMnum_le p.numericFallback s
  rw [parseOk, eq_assemble_iff, eq_ofNat_iff (v := yearField r) (by omega),
    eq_ofNat_iff (v := mnumField r) (by omega)]
  constructor
  · rintro ⟨hpad, homask, hname, hyear, hmon, hday, hgen, hmlet, hmnum, hchk⟩
    exact ⟨hpad, homask, letterIndex_eq_iff.mpr ⟨hname, hmlet, hchk⟩, hyear, hmon, hday, hgen, hmnum⟩
  · rintro ⟨hpad, homask, hletters, hyear, hmon, hday, hgen, hmnum⟩
    obtain ⟨hname, hmlet, hchk⟩ := letterIndex_eq_iff.mp hletters
    exact ⟨hpad, homask, hname, hyear, hmon, hday, hgen, hmlet, hmnum, hchk⟩

theorem fieldsReadFrom_parseOk (p : CodecParams) (s : Chars) : FieldsReadFrom p s ((parseOk p s).setWidth 80) :=
  eq_parseOk_iff.mp rfl

/-! ### The characters of a formatted record (43_codec.md R174, R175) -/

/-- The digits of the year, the day value and the municipality number, one for each eligible position
(`format_eligiblePosition`). -/
def renderedDigit (r : RecWord) (k : Fin 7) : Fin 10 :=
  #v[dig (yearField r).toNat 1, dig (yearField r).toNat 0, dig (renderedDayValue r) 1, dig (renderedDayValue r) 0,
    dig (mnumField r).toNat 2, dig (mnumField r).toNat 1, dig (mnumField r).toNat 0][k]

theorem format_letterPosition (r : RecWord) (k : Fin 8) :
    (format r)[letterPositions[k]] = letterOf (letterIndex r k) := by
  fin_cases k <;> rfl

theorem format_namePosition (r : RecWord) (j : Fin 6) : (format r)[j.val] = letterOf (nameGroup r j) := by
  fin_cases j <;> rfl

theorem format_monthPosition (r : RecWord) : (format r)[(8 : Fin 16)] = m2l (monField r).toNat := rfl

theorem format_eligiblePosition (r : RecWord) (k : Fin 7) :
    (format r)[eligiblePositions[k]] = substituted (renderedDigit r k) ((omaskField r).getLsbD (6 - k.val)) := by
  fin_cases k <;> rfl

/-- Every position is one of a letter, the month's, or eligible for a digit. -/
theorem position_cases (i : Fin 16) :
    (∃ k : Fin 8, i = letterPositions[k]) ∨ i = 8 ∨ ∃ k : Fin 7, i = eligiblePositions[k] := by
  revert i; decide

theorem forall_position_iff {P : Fin 16 → Prop} :
    (∀ i, P i) ↔ (∀ k : Fin 8, P letterPositions[k]) ∧ P 8 ∧ ∀ k : Fin 7, P eligiblePositions[k] := by
  constructor
  · exact fun h => ⟨fun k => h _, h 8, fun k => h _⟩
  · rintro ⟨hletter, hmonth, hdigit⟩ i
    rcases position_cases i with ⟨k, rfl⟩ | rfl | ⟨k, rfl⟩
    · exact hletter k
    · exact hmonth
    · exact hdigit k

/-- What holds of every rendered digit holds of a formatted record when it holds of its letters and its month. -/
theorem forall_format_iff {P : Byte → Prop} (hdigit : ∀ d b, P (substituted d b)) (r : RecWord) :
    (∀ i : Fin 16, P (format r)[i]) ↔ (∀ k : Fin 8, P (letterOf (letterIndex r k))) ∧ P (m2l (monField r).toNat) := by
  simp only [forall_position_iff, format_letterPosition, format_monthPosition, format_eligiblePosition, hdigit,
    implies_true, and_true]

theorem omaskField_getLsbD (r : RecWord) {b : Nat} (hb : b < 7) : (omaskField r).getLsbD b = r.getLsbD (67 + b) := by
  rw [omaskField, BitVec.getLsbD_extractLsb', decide_eq_true hb, Bool.true_and]

/-! ### Letters and month letters (41_alphabet_tables.md R120 to R124) -/

theorem isupper_letterOf {n : BitVec 5} (h : n.toNat ≤ 25) : isupper (letterOf n) = true := by
  rw [isupper_iff, letterOf, i2l_toNat, if_pos h]
  omega

theorem letterOf_of_lt {n : BitVec 5} (h : 25 < n.toNat) : letterOf n = 0x61#8 := if_neg (by omega)

theorem isupper_or_isdigit_letterOf_iff {n : BitVec 5} :
    isupper (letterOf n) = true ∨ isdigit (letterOf n) = true ↔ n.toNat ≤ 25 := by
  constructor
  · intro h
    by_contra hgt
    rw [letterOf_of_lt (by omega)] at h
    revert h; decide
  · exact fun h => .inl (isupper_letterOf h)

theorem letterOf_ne_NUL (n : BitVec 5) : letterOf n ≠ Config.NUL := by
  by_cases h : n.toNat ≤ 25
  · intro hnul
    have hupper := isupper_letterOf h
    rw [hnul] at hupper
    revert hupper; decide
  · rw [letterOf_of_lt (by omega)]
    decide

theorem l2i_letterOf {n : BitVec 5} (h : n.toNat ≤ 25) : l2i (letterOf n) = n := by
  apply BitVec.eq_of_toNat_eq
  rw [letterOf, l2i_i2l_toNat, if_pos h]

theorem isupper_iff_isalpha_and_not_islower {c : Byte} :
    isupper c = true ↔ isalpha c = true ∧ islower c = false := by
  rw [← Bool.not_eq_true, isupper_iff, isalpha_iff, islower_iff]
  omega

theorem upper_upper (c : Byte) : upper (upper c) = upper c := by
  apply BitVec.eq_of_toNat_eq
  simp only [upper_toNat]
  split_ifs <;> omega

/-- A character is the letter of its own index exactly when it is an upper-case letter. -/
theorem letterOf_l2i_eq_iff {c : Byte} : letterOf (l2i c) = c ↔ isupper c = true := by
  constructor
  · intro h
    rw [← h]
    exact isupper_letterOf (l2i_toNat_le c)
  · intro h
    obtain ⟨halpha, hlower⟩ := isupper_iff_isalpha_and_not_islower.mp h
    rw [letterOf, i2l_l2i_of_isalpha halpha, upper_of_not_islower (by simp [hlower])]

theorem isupper_of_mem_monthLetters {c : Byte} (h : c ∈ monthLetters) : isupper c = true := by
  obtain ⟨k, rfl⟩ := exists_eq_of_mem_monthLetters h
  clear h
  revert k; decide

theorem upper_of_mem_monthLetters {c : Byte} (h : c ∈ monthLetters) : upper c = c := by
  obtain ⟨k, rfl⟩ := exists_eq_of_mem_monthLetters h
  obtain ⟨hupper, -⟩ := upper_monthLetter k
  exact hupper

theorem m2l_mem_monthLetters {n : Nat} (hlo : 1 ≤ n) (hhi : n ≤ 12) : m2l n ∈ monthLetters := by
  obtain ⟨k, rfl⟩ : ∃ k : Fin 12, n = k.val + 1 := ⟨⟨n - 1, by omega⟩, by simp; omega⟩
  rw [m2l_month]
  revert k; decide

theorem m2l_of_outside {n : Nat} (h : n = 0 ∨ 12 < n) : m2l n = Config.NUL := by
  rcases h with rfl | h
  · rfl
  · rw [m2l_eq_getD, List.getD_eq_default _ _ (by simp [monthLetters]; omega)]

theorem isupper_or_isdigit_m2l_iff {n : Nat} :
    isupper (m2l n) = true ∨ isdigit (m2l n) = true ↔ 1 ≤ n ∧ n ≤ 12 := by
  constructor
  · intro h
    by_contra hout
    rw [m2l_of_outside (by omega)] at h
    revert h; decide
  · rintro ⟨hlo, hhi⟩
    exact .inl (isupper_of_mem_monthLetters (m2l_mem_monthLetters hlo hhi))

theorem m2l_ne_NUL_iff {n : Nat} : m2l n ≠ Config.NUL ↔ 1 ≤ n ∧ n ≤ 12 := by
  constructor
  · intro h
    by_contra hout
    exact h (m2l_of_outside (by omega))
  · rintro ⟨hlo, hhi⟩ hnul
    have hupper := isupper_of_mem_monthLetters (m2l_mem_monthLetters hlo hhi)
    rw [hnul] at hupper
    revert hupper; decide

theorem l2m_m2l {m : BitVec 4} (hlo : 1 ≤ m.toNat) (hhi : m.toNat ≤ 12) : l2m (m2l m.toNat) = m := by
  obtain ⟨hmonth, -⟩ := alphabetTableLaws
  exact BitVec.eq_of_toNat_eq (hmonth m.toNat hlo hhi)

/-- A character is the letter of its own month exactly when it is an upper-case month letter. -/
theorem m2l_l2m_eq_iff {c : Byte} (hc : c ≠ Config.NUL) : m2l (l2m c).toNat = c ↔ c ∈ monthLetters := by
  obtain ⟨-, hlaw, -⟩ := alphabetTableLaws
  obtain ⟨hletter, hother⟩ := hlaw c
  constructor
  · intro h
    by_cases hmem : upper c ∈ monthLetters
    · rwa [← h, hletter hmem]
    · exact absurd (h.symm.trans (hother hmem)) hc
  · intro h
    have hupper := upper_of_mem_monthLetters h
    rw [hletter (hupper.symm ▸ h), hupper]

/-! ### Reading what format wrote (43_codec.md R181) -/

theorem valid16_iff {s : Chars} : valid16 16 s = true ↔ ∀ i : Fin 16, isalnum s[i] = true := by
  simp only [valid16, beq_self_eq_true, Bool.true_and, List.all_eq_true, Vector.mem_toList_iff]
  constructor
  · exact fun h i => h _ (Vector.getElem_mem _)
  · intro h c hc
    obtain ⟨i, hi, rfl⟩ := Vector.getElem_of_mem hc
    exact h ⟨i, hi⟩

theorem isalnum_of_isupper_or_isdigit {c : Byte} (h : isupper c = true ∨ isdigit c = true) : isalnum c = true := by
  rw [isalnum_iff, isalpha, Bool.or_eq_true]
  exact h.imp_left .inl

/-- The output is upper-case alphanumeric exactly when no letter index and no month shows a sentinel (43_codec.md R177). -/
theorem isupper_or_isdigit_format_iff (r : RecWord) :
    (∀ i : Fin 16, isupper (format r)[i] = true ∨ isdigit (format r)[i] = true) ↔
      lettersInRange r = true ∧ 1 ≤ (monField r).toNat ∧ (monField r).toNat ≤ 12 := by
  rw [forall_format_iff (P := fun c => isupper c = true ∨ isdigit c = true) isupper_or_isdigit_substituted,
    lettersInRange_iff]
  simp only [isupper_or_isdigit_letterOf_iff, isupper_or_isdigit_m2l_iff]

theorem canonical_iff {r : RecWord} :
    canonical r = true ↔ wellFormedRecord r = true ∧
      (lettersInRange r = true ∧ 1 ≤ (monField r).toNat ∧ (monField r).toNat ≤ 12) ∧ padField r = 0#6 := by
  simp [canonical, and_assoc]

theorem parseYear_format {r : RecWord} (f : NumericFallback) (h : (yearField r).toNat ≤ 99) :
    parseYear f (format r) = (yearField r).toNat := by
  rw [parseYear_eq]
  refine Eq.trans ?_ (dec2_chr_dig f h)
  exact congrArg₂ (dec2 f) (plainCharacter_substituted _ _) (plainCharacter_substituted _ _)

theorem dayGenderValue_format (r : RecWord) (f : NumericFallback) :
    dayGenderValue f (format r) = renderedDayValue r := by
  have hle := renderedDayValue_le r
  rw [dayGenderValue_eq]
  refine Eq.trans ?_ (dec2_chr_dig f (n := renderedDayValue r) (by omega))
  exact congrArg₂ (dec2 f) (plainCharacter_substituted _ _) (plainCharacter_substituted _ _)

theorem parseMnum_format {r : RecWord} (f : NumericFallback) (h : (mnumField r).toNat ≤ 999) :
    parseMnum f (format r) = (mnumField r).toNat := by
  rw [parseMnum_eq]
  refine Eq.trans ?_ (dec3_chr_dig f h)
  rw [← plainCharacter_substituted _ ((omaskField r).getLsbD 2), ← plainCharacter_substituted _ ((omaskField r).getLsbD 1),
    ← plainCharacter_substituted _ ((omaskField r).getLsbD 0)]
  rfl

/-- The fields of a canonical record are what parse reads from its own string. -/
theorem fieldsReadFrom_format (p : CodecParams) {r : RecWord} (h : canonical r = true) : FieldsReadFrom p (format r) r := by
  obtain ⟨hwf, ⟨hletters, hmonlo, hmonhi⟩, hpad⟩ := canonical_iff.mp h
  obtain ⟨hyear, hmnum⟩ := (wellFormedRecord_iff r).mp hwf
  rw [lettersInRange_iff] at hletters
  have hv : splitDayGender (dayGenderValue p.numericFallback (format r)) = ((dayField r).toNat, genField r) := by
    rw [dayGenderValue_format, splitDayGender_renderedDayValue]
  exact
    { pad := hpad
      omask := (emask_eq_iff.mpr (isalpha_format_eligiblePosition r)).symm
      letters := fun k => by rw [format_letterPosition, l2i_letterOf (hletters k)]
      year := (parseYear_format _ hyear).symm
      mon := (l2m_m2l hmonlo hmonhi).symm
      day := by rw [hv, storedDay_toNat]
      gen := by rw [hv]
      mnum := (parseMnum_format _ hmnum).symm }

theorem valid16_format {r : RecWord} (h : canonical r = true) : valid16 16 (format r) = true := by
  obtain ⟨-, hshown, -⟩ := canonical_iff.mp h
  exact valid16_iff.mpr fun i => isalnum_of_isupper_or_isdigit ((isupper_or_isdigit_format_iff r).mpr hshown i)

theorem parse_format (p : CodecParams) {r : RecWord} (h : canonical r = true) : parse p 16 (format r) = .ok r :=
  parse_eq_ok_iff.mpr ⟨valid16_format h, (eq_parseOk_iff.mpr (fieldsReadFrom_format p h)).symm⟩

/-! ### What a parse guarantees (43_codec.md R180) -/

section parsed
variable {p : CodecParams} {s : Chars} {r : RecWord}

theorem FieldsReadFrom.wellFormed (h : FieldsReadFrom p s r) : wellFormedRecord r = true := by
  rw [wellFormedRecord_iff, h.year, h.mnum]
  exact ⟨parseYear_le _ _, parseMnum_le _ _⟩

theorem FieldsReadFrom.letters_le (h : FieldsReadFrom p s r) (k : Fin 8) : (letterIndex r k).toNat ≤ 25 := by
  rw [h.letters]
  exact l2i_toNat_le _

theorem FieldsReadFrom.mon_le (h : FieldsReadFrom p s r) : (monField r).toNat ≤ 12 := by
  rw [h.mon]
  exact l2m_toNat_le _

/-- A month field is in range exactly when the string has a month letter. -/
theorem FieldsReadFrom.one_le_mon_iff (h : FieldsReadFrom p s r) : 1 ≤ (monField r).toNat ↔ l2m s[8] ≠ 0#4 := by
  rw [h.mon, Nat.one_le_iff_ne_zero, ne_eq, ne_eq, ← BitVec.toNat_inj]
  rfl

theorem FieldsReadFrom.canonical (h : FieldsReadFrom p s r) (hmonth : l2m s[8] ≠ 0#4) : canonical r = true :=
  canonical_iff.mpr ⟨h.wellFormed, ⟨lettersInRange_iff.mpr h.letters_le, h.one_le_mon_iff.mpr hmonth, h.mon_le⟩, h.pad⟩

theorem FieldsReadFrom.format_ne_fallback (h : FieldsReadFrom p s r) (i : Fin 16) : (format r)[i] ≠ 0x61#8 := by
  have hdigit (d : Fin 10) (b : Bool) : substituted d b ≠ 0x61#8 := by revert d b; decide
  have hupper {c : Byte} (hc : isupper c = true) : c ≠ 0x61#8 := by rintro rfl; revert hc; decide
  refine (forall_format_iff (P := (· ≠ 0x61#8)) hdigit r).mpr ⟨fun k => hupper (isupper_letterOf (h.letters_le k)), ?_⟩ i
  by_cases hmonth : 1 ≤ (monField r).toNat
  · exact hupper (isupper_of_mem_monthLetters (m2l_mem_monthLetters hmonth h.mon_le))
  · rw [m2l_of_outside (by omega)]
    decide

/-- The formatted record of a string holds `NUL` exactly when the string has no month letter. -/
theorem FieldsReadFrom.exists_NUL_iff (h : FieldsReadFrom p s r) :
    (∃ i : Fin 16, (format r)[i] = 0x00#8) ↔ l2m s[8] = 0#4 := by
  have hdigit (d : Fin 10) (b : Bool) : substituted d b ≠ Config.NUL := by revert d b; decide
  have hletters (k : Fin 8) : letterOf (letterIndex r k) ≠ Config.NUL := letterOf_ne_NUL _
  have hnone := forall_format_iff (P := (· ≠ Config.NUL)) hdigit r
  rw [m2l_ne_NUL_iff, and_iff_right hletters, and_iff_left h.mon_le, h.one_le_mon_iff] at hnone
  exact not_iff_not.mp (not_exists.trans hnone)

/-! ### Exactly when format gives the string back (43_codec.md R184) -/

/-- The seven eligible positions are grouped as the numbers they hold: year, day value, municipality number. -/
theorem forall_eligible_iff {P : Fin 16 → Fin 7 → Prop} :
    (∀ k : Fin 7, P eligiblePositions[k] k) ↔
      (P 6 0 ∧ P 7 1) ∧ (P 9 2 ∧ P 10 3) ∧ P 12 4 ∧ P 13 5 ∧ P 14 6 := by
  simp [Fin.forall_fin_succ, eligiblePositions, and_assoc]

/-- The digits of a parsed record are the characters they were read from exactly when these are in the alphabet and the day
value is one that the day field can hold. -/
theorem FieldsReadFrom.renderedDigits_iff (h : FieldsReadFrom p s r) :
    (∀ k : Fin 7, substituted (renderedDigit r k) (isalpha s[eligiblePositions[k]]) = s[eligiblePositions[k]]) ↔
      (∀ k : Fin 7, InDigitAlphabet s[eligiblePositions[k]]) ∧
      (dayGenderValue p.numericFallback s ≤ 31 ∨
        (40 ≤ dayGenderValue p.numericFallback s ∧ dayGenderValue p.numericFallback s ≤ 71)) := by
  obtain ⟨hyear, hmnum⟩ := (wellFormedRecord_iff r).mp h.wellFormed
  have hrendered := renderedDayValue_le r
  have hday := renderedDayValue_eq_iff (dayGenderValue_le p.numericFallback s) h.gen h.day
  have year := rendered_pair_iff p.numericFallback (a := s[6]) (b := s[7]) hyear
  have day := rendered_pair_iff p.numericFallback (a := s[9]) (b := s[10]) (n := renderedDayValue r) (by omega)
  have mnum := rendered_triple_iff p.numericFallback (a := s[12]) (b := s[13]) (c := s[14]) hmnum
  rw [← parseYear_eq, and_iff_left h.year] at year
  rw [← dayGenderValue_eq, hday] at day
  rw [← parseMnum_eq, and_iff_left h.mnum] at mnum
  have rendered := (forall_eligible_iff (P := fun i k => substituted (renderedDigit r k) (isalpha s[i]) = s[i])).trans
    (and_congr year (and_congr day mnum))
  have alphabet := forall_eligible_iff (P := fun i _ => InDigitAlphabet s[i])
  rw [rendered, alphabet]
  constructor
  · rintro ⟨hyear, ⟨hday, hv⟩, hmnum⟩
    exact ⟨⟨hyear, hday, hmnum⟩, hv⟩
  · rintro ⟨⟨hyear, hday, hmnum⟩, hv⟩
    exact ⟨hyear, ⟨hday, hv⟩, hmnum⟩

end parsed

/-- A character in the alphabet of a digit is no lower-case letter. -/
theorem islower_of_inDigitAlphabet {c : Byte} (h : InDigitAlphabet c) : islower c = false := by
  obtain ⟨d, hd⟩ := inDigitAlphabet_iff.mp h
  have hrendered (b : Bool) : islower (substituted d b) = false := by clear hd; revert d b; decide
  rw [← hd, hrendered]

/-- The conditions of R184: every letter is upper case, letters stand where letters belong, a month letter at index 8, digits or
substitution letters at the eligible positions, and a day value that the day field can hold. -/
def InFieldAlphabets (p : CodecParams) (s : Chars) : Prop :=
  (∀ i : Fin 16, islower s[i] = false) ∧
  (∀ i ∈ letterPositions, isalpha s[i] = true) ∧
  s[8] ∈ monthLetters ∧
  (∀ i ∈ eligiblePositions, InDigitAlphabet s[i]) ∧
  (dayGenderValue p.numericFallback s ≤ 31 ∨
    (40 ≤ dayGenderValue p.numericFallback s ∧ dayGenderValue p.numericFallback s ≤ 71))

theorem inFieldAlphabets_iff {p : CodecParams} {s : Chars} :
    InFieldAlphabets p s ↔
      (∀ k : Fin 8, isupper s[letterPositions[k]] = true) ∧ s[8] ∈ monthLetters ∧
      (∀ k : Fin 7, InDigitAlphabet s[eligiblePositions[k]]) ∧
      (dayGenderValue p.numericFallback s ≤ 31 ∨
        (40 ≤ dayGenderValue p.numericFallback s ∧ dayGenderValue p.numericFallback s ≤ 71)) := by
  rw [InFieldAlphabets, List.forall_mem_iff_get, List.forall_mem_iff_get]
  constructor
  · rintro ⟨hlower, halpha, hmonth, hdigit, hv⟩
    exact ⟨fun k => isupper_iff_isalpha_and_not_islower.mpr ⟨halpha k, hlower _⟩, hmonth, hdigit, hv⟩
  · rintro ⟨hupper, hmonth, hdigit, hv⟩
    have hletters (k : Fin 8) := isupper_iff_isalpha_and_not_islower.mp (hupper k)
    have hmonthUpper := isupper_iff_isalpha_and_not_islower.mp (isupper_of_mem_monthLetters hmonth)
    exact ⟨forall_position_iff.mpr
        ⟨fun k => (hletters k).2, hmonthUpper.2, fun k => islower_of_inDigitAlphabet (hdigit k)⟩,
      fun k => (hletters k).1, hmonth, hdigit, hv⟩

theorem chars_eq_iff {s t : Chars} : s = t ↔ ∀ i : Fin 16, s[i] = t[i] :=
  ⟨fun h _ => h ▸ rfl, fun h => Vector.ext fun i hi => h ⟨i, hi⟩⟩

/-- A parsed record is formatted as the string it was read from exactly under the conditions of R184. -/
theorem FieldsReadFrom.format_eq_iff {p : CodecParams} {s : Chars} {r : RecWord} (h : FieldsReadFrom p s r)
    (hmonth : s[8] ≠ Config.NUL) : format r = s ↔ InFieldAlphabets p s := by
  have hmask (k : Fin 7) : (omaskField r).getLsbD (6 - k.val) = isalpha s[eligiblePositions[k]] := by
    rw [h.omask, emask_getLsbD]
  have hmon : (format r)[(8 : Fin 16)] = m2l (l2m s[8]).toNat := by rw [format_monthPosition, h.mon]
  rw [chars_eq_iff, forall_position_iff, inFieldAlphabets_iff, ← h.renderedDigits_iff, hmon]
  simp only [format_letterPosition, format_eligiblePosition, h.letters, hmask, letterOf_l2i_eq_iff]
  exact and_congr_right' (and_congr_left' (m2l_l2m_eq_iff hmonth))

/-! ### Case (43_codec.md R184) -/

theorem isalpha_upper (c : Byte) : isalpha (upper c) = isalpha c := by
  rw [Bool.eq_iff_iff, isalpha_iff, isalpha_iff, upper_toNat]
  split_ifs <;> omega

theorem upper_of_not_isalpha {c : Byte} (h : ¬isalpha c = true) : upper c = c := by
  refine upper_of_not_islower fun hlower => h ?_
  rw [isalpha, hlower, Bool.or_true]

theorem l2i_upper (c : Byte) : l2i (upper c) = l2i c := by simp only [l2i, isalpha_upper, upper_upper]

theorem l2m_upper (c : Byte) : l2m (upper c) = l2m c := by simp only [l2m, upper_upper]

theorem l2d_upper (c : Byte) : l2d (upper c) = l2d c := by simp only [l2d, upper_upper]

theorem plainCharacter_upper (c : Byte) : plainCharacter (upper c) = plainCharacter c := by
  by_cases h : isalpha c = true
  · simp only [plainCharacter, isalpha_upper, l2d_upper, if_pos h]
  · rw [upper_of_not_isalpha h]

/-- The string with every letter in upper case. -/
def foldCase (s : Chars) : Chars := Vector.ofFn fun i => upper s[i]

@[simp] theorem foldCase_getElem (s : Chars) (i : Nat) (hi : i < 16) : (foldCase s)[i] = upper s[i] := by
  simp [foldCase]

theorem emask_foldCase (s : Chars) : emask (foldCase s) = emask s :=
  emask_eq_iff.mpr fun k => by simp only [Fin.getElem_fin, foldCase_getElem, isalpha_upper, emask_getLsbD]

/-- Parse does not see the case of a letter. -/
theorem FieldsReadFrom.folded {p : CodecParams} {s : Chars} {r : RecWord} (h : FieldsReadFrom p s r) :
    FieldsReadFrom p (foldCase s) r := by
  have year (f : NumericFallback) : parseYear f (foldCase s) = parseYear f s := by
    simp only [parseYear_eq, foldCase_getElem, plainCharacter_upper]
  have day (f : NumericFallback) : dayGenderValue f (foldCase s) = dayGenderValue f s := by
    simp only [dayGenderValue_eq, foldCase_getElem, plainCharacter_upper]
  have mnum (f : NumericFallback) : parseMnum f (foldCase s) = parseMnum f s := by
    simp only [parseMnum_eq, foldCase_getElem, plainCharacter_upper]
  exact ⟨h.pad, by rw [h.omask, emask_foldCase],
    fun k => by simp only [h.letters, Fin.getElem_fin, foldCase_getElem, l2i_upper], by rw [h.year, year],
    by rw [h.mon, foldCase_getElem, l2m_upper], by rw [h.day, day], by rw [h.gen, day], by rw [h.mnum, mnum]⟩

theorem isalnum_upper (c : Byte) : isalnum (upper c) = isalnum c := by
  by_cases h : isalpha c = true
  · rw [isalnum, isalnum, isalpha_upper, h, Bool.true_or, Bool.true_or]
  · rw [upper_of_not_isalpha h]

theorem ne_NUL_of_isalnum {c : Byte} (h : isalnum c = true) : c ≠ Config.NUL := by
  rintro rfl
  revert h; decide

/-! ### PARSE and FORMAT on the machine (43_codec.md R173, R178) -/

theorem parse_of_not_valid16 (p : CodecParams) {n : Nat} {s : Chars} (h : ¬valid16 n s = true) :
    parse p n s = .error .invalidFormat := if_neg h

/-- PARSE keeps the string, the result and the host's side. -/
theorem apply_effect_parse_frame (s : State) :
    ((effect .parse s).apply s).res = s.res ∧ SameString s ((effect .parse s).apply s) ∧
      SameHost s ((effect .parse s).apply s) :=
  ⟨effect_res (by decide) s, effect_sameString (by decide) (by decide) s, (effect .parse s).apply_sameHost s⟩

/-- PARSE of a valid string stores a record of the string's fields. -/
theorem apply_effect_parse_of_valid {s : State} (h : HoldsValidString s) :
    ((effect .parse s).apply s).readREC = (parseOk Config.params s.readSB).setWidth 80 ∧
      ((effect .parse s).apply s).rv = true ∧ ((effect .parse s).apply s).st = .ok :=
  apply_effect_parse_of_ok (parse_eq_ok_iff.mpr ⟨(valid16_readSB s).mpr h, rfl⟩)

theorem exec_format_of_wellFormed {s : State} (hrv : s.rv = true) (hwf : wellFormedRecord s.readREC = true) :
    ∃ t, exec .format s = .next t ∧ t.readSB = format s.readREC ∧ t.slen = 16#8 ∧ t.st = .ok ∧ t.res = s.res ∧
      SameRecord s t ∧ SameHost s t := by
  obtain ⟨hcell, hslen, hst⟩ := apply_effect_format_of_wellFormed hrv hwf
  refine ⟨_, exec_eq_apply .format s, chars_eq_iff.mpr fun i => ?_, hslen, hst, effect_res (by decide) s,
    effect_sameRecord (by decide) s, (effect .format s).apply_sameHost s⟩
  rw [State.readSB_getElem, hcell]

/-! ### The obligations -/

/-- Settles O48: the characters are no sentinels, and each field of the record is read back from its characters. -/
theorem parseInvertsFormatOnCanonicalRecords : Obligations.ParseInvertsFormatOnCanonicalRecords := by
  intro p r h
  obtain ⟨-, hshown, -⟩ := canonical_iff.mp h
  exact ⟨(isupper_or_isdigit_format_iff r).mpr hshown, valid16_format h, parse_format p h⟩

/-- Settles O49: with a month letter the parsed record is canonical; with none its string holds `NUL`. -/
theorem parseFormatParseIsParse : Obligations.ParseFormatParseIsParse := by
  intro p s r hparse
  obtain ⟨-, hr⟩ := parse_eq_ok_iff.mp hparse
  have hfields : FieldsReadFrom p s r := eq_parseOk_iff.mp hr.symm
  refine ⟨fun hmonth => parse_format p (hfields.canonical hmonth), fun hmonth => parse_of_not_valid16 p fun hvalid => ?_⟩
  obtain ⟨i, hnul⟩ := hfields.exists_NUL_iff.mpr hmonth
  exact ne_NUL_of_isalnum (valid16_iff.mp hvalid i) hnul

/-- Settles O51: the string is compared with the formatted record position by position; folding the case of the string does not
change its record. -/
theorem formatReproducesTheStringExactlyWhen : Obligations.FormatReproducesTheStringExactlyWhen := by
  intro p s hvalid folded
  have hfields := fieldsReadFrom_parseOk p s
  have halnum := valid16_iff.mp hvalid 8
  have hfolded : (foldCase s)[8] ≠ Config.NUL := by
    rw [foldCase_getElem]
    exact ne_NUL_of_isalnum ((isalnum_upper _).trans halnum)
  exact ⟨hfields.format_eq_iff (ne_NUL_of_isalnum halnum), (hfields.folded.format_eq_iff hfolded).mpr⟩

/-- Settles O40: the effect is the record of the string, or no record; either way only `REC`, `RV` and `ST` are written. -/
theorem parseStoresTheRecordOrEmptiesIt : Obligations.ParseStoresTheRecordOrEmptiesIt := by
  refine ⟨decode_encode .parse, fun s => ⟨fun hvalid => ?_, fun hinvalid => ?_⟩⟩
  · obtain ⟨hrec, hrv, hst⟩ := apply_effect_parse_of_valid hvalid
    exact ⟨_, exec_eq_apply .parse s, hrec, hrv, hst, apply_effect_parse_frame s⟩
  · have herror := parse_of_not_valid16 Config.params (mt (valid16_readSB s).mp hinvalid)
    obtain ⟨hrec, hrv, hst⟩ := apply_effect_parse_of_error herror
    exact ⟨_, exec_eq_apply .parse s, hrec, hrv, hst, apply_effect_parse_frame s⟩

/-- Settles O41: the fields stand side by side, and each number fits its field. -/
theorem parseAssemblesTheFields : Obligations.ParseAssemblesTheFields := by
  intro p s
  have hyear := parseYear_le p.numericFallback s
  have hmnum := parseMnum_le p.numericFallback s
  refine ⟨?_, parseName_toNat s⟩
  have hyearField : (BitVec.ofNat 7 (parseYear p.numericFallback s)).toNat = _ := (eq_ofNat_iff (by omega)).mp rfl
  have hmnumField : (BitVec.ofNat 10 (parseMnum p.numericFallback s)).toNat = _ := (eq_ofNat_iff (by omega)).mp rfl
  rw [parseOk, assemble_toNat, hyearField, hmnumField]

/-- Settles O43: the record holds the two parts of the day value, male up to 39 and female from 40. -/
theorem dayAndGenderOfAParsedString : Obligations.DayAndGenderOfAParsedString := by
  intro s hvalid
  obtain ⟨hrec, -, -⟩ := apply_effect_parse_of_valid hvalid
  have hfields := eq_parseOk_iff.mp hrec
  have hday : _ = storedDay .truncate (splitDayGender (dayGenderValue .fieldZero s.readSB)).1 := hfields.day
  have hgen : _ = (splitDayGender (dayGenderValue .fieldZero s.readSB)).2 := hfields.gen
  refine ⟨_, exec_eq_apply .parse s, dayGenderValue_le _ _, fun hmale => ?_, fun hfemale => ?_⟩
  · rw [hgen, hday, splitDayGender_male hmale]
    exact ⟨rfl, storedDay_truncate_toNat _⟩
  · rw [hgen, hday, splitDayGender_female hfemale]
    exact ⟨rfl, storedDay_truncate_toNat _⟩

/-- Settles O44: every clause is a bound on what parse reads for a field. -/
theorem parsedRecordsAreInRange : Obligations.ParsedRecordsAreInRange := by
  intro p s _ r
  have h : FieldsReadFrom p s r := fieldsReadFrom_parseOk p s
  refine ⟨h.wellFormed, lettersInRange_iff.mpr h.letters_le, h.mon_le, Nat.le_of_lt_succ (dayField r).isLt, h.pad, h.omask,
    h.format_ne_fallback, h.exists_NUL_iff, fun u hu hrv => ?_⟩
  obtain ⟨t, hexec, -, -, hst, -⟩ := exec_format_of_wellFormed hrv (hu ▸ h.wellFormed)
  exact ⟨t, hexec, hst⟩

/-- Settles O45: the effect is the string of the record, or a refusal. -/
theorem formatWritesTheString : Obligations.FormatWritesTheString := by
  refine ⟨decode_encode .format, fun s => ⟨fun hrv hyear hmnum => ?_, fun hbad => refused_of_effect_refuse (if_neg ?_)⟩⟩
  · obtain ⟨t, hexec, hsb, hframe⟩ := exec_format_of_wellFormed hrv ((wellFormedRecord_iff _).mpr ⟨hyear, hmnum⟩)
    exact ⟨t, hexec, fun i => by rw [← State.readSB_getElem, hsb], hframe⟩
  · rw [Bool.and_eq_true, wellFormedRecord_iff]
    rintro ⟨hrv, hyear, hmnum⟩
    rcases hbad with h | h | h
    · rw [hrv] at h; cases h
    · omega
    · omega

/-- Settles O46: each position shows its letter, its month letter, or a digit; the first digit of a number is below 10 because
the record is well formed. -/
theorem formatRendersEachField : Obligations.FormatRendersEachField := by
  intro r hwf t y n v
  obtain ⟨hyear, hmnum⟩ := (wellFormedRecord_iff r).mp hwf
  have hv : v = renderedDayValue r := rfl
  have hvle := renderedDayValue_le r
  have digit {d : Fin 10} {m b : Nat} (hd : d.val = m) (hb : b < 7) :
      substituted d ((omaskField r).getLsbD b) =
        if r.getLsbD (67 + b) then substitutionLetters[m]! else BitVec.ofNat 8 (0x30 + m) := by
    rw [← hd, ← omaskField_getLsbD r hb, substituted_eq_ite]
  refine ⟨format_namePosition r, rfl, rfl, rfl, digit ?_ (by decide), digit ?_ (by decide), digit ?_ (by decide),
    digit ?_ (by decide), digit ?_ (by decide), digit ?_ (by decide), digit ?_ (by decide)⟩
  all_goals simp only [dig]
  all_goals omega

/-- Settles O47: a sentinel is what a table gives outside its range; the last clause is the one on all positions. -/
theorem formatShowsSentinels : Obligations.FormatShowsSentinels := by
  intro r _
  refine ⟨fun j hj => ?_, letterOf_of_lt, letterOf_of_lt, m2l_of_outside, fun hday htens hunits => ?_,
    isupper_or_isdigit_format_iff r⟩
  · rw [format_namePosition, letterOf_of_lt hj]
  · rw [← omaskField_getLsbD r (b := 4) (by decide)] at htens
    rw [← omaskField_getLsbD r (b := 3) (by decide)] at hunits
    have h9 : (format r)[9] = chr (dig (renderedDayValue r) 1) := congrArg (substituted _) htens
    have h10 : (format r)[10] = chr (dig (renderedDayValue r) 0) := congrArg (substituted _) hunits
    rw [h9, h10]
    rcases BitVec.eq_zero_or_eq_one (genField r) with hgen | hgen
    · rw [renderedDayValue_female hgen, hday, hgen]
      decide
    · rw [renderedDayValue_male hgen, hday, hgen]
      decide

/-- Settles O50: a 5-bit day, with 40 added for a female, is split as it was made; a day value above the field's 31 is not
rendered as it was. -/
theorem dayNormalisation : Obligations.DayNormalisation := by
  refine ⟨fun d => ?_, storedDay_toNat, fun o r v => renderedDayValue_eq_iff⟩
  have hd := d.isLt
  exact ⟨splitDayGender_male (by omega), by rw [splitDayGender_female (by omega), Nat.add_sub_cancel]⟩

/-- Settles O52: FORMAT leaves the record's string in the buffer, and PARSE reads the record back from it. -/
theorem formatThenParseKeepsTheRecord : Obligations.FormatThenParseKeepsTheRecord := by
  intro s hrv hcanonical
  obtain ⟨hwf, -⟩ := canonical_iff.mp hcanonical
  obtain ⟨t, hexec, hsb, hslen, -, hres, -⟩ := exec_format_of_wellFormed hrv hwf
  have hparse : parse Config.params t.slen.toNat t.readSB = .ok s.readREC := by
    rw [hslen, hsb]
    exact parse_format Config.params hcanonical
  obtain ⟨hrec, hrv', hst⟩ := apply_effect_parse_of_ok hparse
  obtain ⟨hres', hstring, -⟩ := apply_effect_parse_frame t
  exact ⟨t, _, hexec, exec_eq_apply .parse t, hrec, hrv', hst, hstring, hres'.trans hres⟩

end Sys2Proof.Machine

/-!
The accessor family (44_accessors.md). An accessor's effect is one projection of the record, so each statement is a property of
that projection. A numeric accessor yields a range of bits; a string accessor yields letters and digits byte by byte.
-/

namespace Sys2Proof.Machine

/-! ### A projection of the record (44_accessors.md R200) -/

theorem projectionEffect_of_record {s : State} (f : RecWord → ResWord) (h : s.rv = true) :
    projectionEffect s f = .result (f s.readREC) := if_pos h

theorem projectionEffect_of_none {s : State} (f : RecWord → ResWord) (h : s.rv = false) :
    projectionEffect s f = .refuse := if_neg (by simp [h])

/-- An accessor whose projection has a property of every record: its word decodes, it yields a result with that property, and
with no record it is refused. -/
theorem accessor_yields {i : Instr} {f : RecWord → ResWord} (heffect : ∀ s, effect i s = projectionEffect s f)
    {P : RecWord → ResWord → Prop} (hf : ∀ r, P r (f r)) :
    decode (encode i) = .ok i ∧ ∀ s : State,
      (s.rv = true → ∃ t, exec i s = .next t ∧ OnlyResult s t ∧ P s.readREC t.res) ∧
      (s.rv = false → ∃ t, exec i s = .next t ∧ OnlyStatus .badOperand s t) := by
  refine ⟨decode_encode i, fun s => ⟨fun hrv => ?_, fun hrv => refused_of_effect_refuse ?_⟩⟩
  · have hresult := (heffect s).trans (projectionEffect_of_record f hrv)
    exact ⟨_, exec_of_effect_result hresult, onlyResult_yieldResult s _, hf s.readREC⟩
  · exact (heffect s).trans (projectionEffect_of_none f hrv)

/-- A numeric accessor yields the bits of its field, zero-extended. -/
theorem fieldAccessor_yields {i : Instr} (start len : Nat) (hlen : len ≤ 48)
    (heffect : ∀ s, effect i s = projectionEffect s fun r => (r.extractLsb' start len).setWidth 48) :
    decode (encode i) = .ok i ∧ ∀ s : State,
      (s.rv = true → ∃ t, exec i s = .next t ∧ OnlyResult s t ∧
        t.res.toNat = s.readREC.toNat / 2 ^ start % 2 ^ len) ∧
      (s.rv = false → ∃ t, exec i s = .next t ∧ OnlyStatus .badOperand s t) :=
  accessor_yields heffect (P := fun r v => v.toNat = r.toNat / 2 ^ start % 2 ^ len) fun r =>
    (BitVec.toNat_setWidth_of_le hlen).trans (toNat_extractLsb'_eq_div r start len)

/-! ### Letters of a record (44_accessors.md R201, R207) -/

theorem letterOf_chkField (r : RecWord) : letterOf (chkField r) = i2l (r.toNat % 32) := by
  rw [letterOf, chkField_toNat]

theorem letterOf_mletField (r : RecWord) : letterOf (mletField r) = i2l (r.toNat / 2 ^ 15 % 32) :=
  congrArg i2l (toNat_extractLsb'_eq_div r 15 5)

theorem letterOf_nameGroup (r : RecWord) (j : Fin 6) :
    letterOf (nameGroup r j) = i2l (r.toNat / 2 ^ (62 - 5 * j.val) % 32) := by
  rw [letterOf, nameGroup_toNat]

/-- Byte j of the name string is the letter of group j: j of the letters stand to the right of it. -/
theorem lane_nameString (r : RecWord) (j : Fin 6) : lane (nameString r) j = letterOf (nameGroup r j) := by
  fin_cases j <;> simp [nameString, lane_append_zero, lane_append_succ, lane_byte]

/-! ### The municipality (44_accessors.md R206) -/

/-- Extending a value keeps the bytes below its new width. -/
theorem lane_setWidth {w n k : Nat} (v : BitVec w) (h : 8 * k + 8 ≤ n) : lane (v.setWidth n) k = lane v k :=
  BitVec.extractLsb'_setWidth_of_le h

theorem mnumField_toNat (r : RecWord) : (mnumField r).toNat = r.toNat / 2 ^ 5 % 1024 := toNat_extractLsb'_eq_div r 5 10

/-- The municipality string is its letter and its three plain digits, the highest first, with zeros above. -/
theorem lanes_municipalityString (r : RecWord) :
    lane (municipalityString r) 0 = letterOf (mletField r) ∧
    (∀ j : Fin 3, lane (municipalityString r) (j.val + 1) = chr (dig (mnumField r).toNat (2 - j.val))) ∧
    (municipalityString r).extractLsb' 32 16 = 0#16 := by
  refine ⟨?_, fun j => ?_, ?_⟩
  · exact (lane_setWidth _ (by decide)).trans (lane_append_zero _ _)
  · rw [municipalityString, lane_setWidth _ (by omega), lane_append_succ]
    fin_cases j <;> simp [lane_append_zero, lane_append_succ, lane_byte]
  · rw [municipalityString, BitVec.setWidth_eq_append (by decide)]
    exact BitVec.extractLsb'_append_eq_left

theorem chr_dig_toNat (v k : Nat) : (chr (dig v k)).toNat = 0x30 + v / 10 ^ k % 10 := chr_toNat (dig v k)

theorem effect_gmuni_of_record {s : State} (hrv : s.rv = true) (hmnum : (mnumField s.readREC).toNat ≤ 999) :
    effect .gmuni s = .result (municipalityString s.readREC) := by
  rw [effect, if_neg (by simp [hmnum]), projectionEffect_of_record _ hrv]

theorem effect_gmuni_of_refused {s : State} (h : s.rv = false ∨ (mnumField s.readREC).toNat > 999) :
    effect .gmuni s = .refuse := by
  cases hrv : s.rv with
  | false => rw [effect, if_neg (by simp [hrv]), projectionEffect_of_none _ hrv]
  | true =>
    have hbig := h.resolve_left (by simp [hrv])
    exact if_pos (by simp [hrv, hbig])

/-! ### The obligations -/

/-- Settles O54: byte j of the result is the letter of name group j. -/
theorem gnameYieldsTheNameLetters : Obligations.GnameYieldsTheNameLetters :=
  accessor_yields (i := .gname) (f := nameString) (fun _ => rfl)
    (P := fun r v => ∀ j : Fin 6, v.extractLsb' (8 * j.val) 8 = i2l (r.toNat / 2 ^ (62 - 5 * j.val) % 32))
    fun r j => (lane_nameString r j).trans (letterOf_nameGroup r j)

/-- Settles O59: the letter and the digits are the lanes of the result; the hundreds digit is the whole quotient because the
number is at most 999. -/
theorem gmuniYieldsLetterAndThreeDigits : Obligations.GmuniYieldsLetterAndThreeDigits := by
  refine ⟨decode_encode .gmuni, fun s => ⟨fun hrv hmnum => ?_, fun hbad => ?refused⟩⟩
  case refused => exact refused_of_effect_refuse (effect_gmuni_of_refused hbad)
  refine ⟨_, exec_of_effect_result (effect_gmuni_of_record hrv hmnum), onlyResult_yieldResult s _, ?_⟩
  obtain ⟨hletter, hdigit, hzero⟩ := lanes_municipalityString s.readREC
  have digit (j : Fin 3) : (lane (municipalityString s.readREC) (j.val + 1)).toNat =
      0x30 + s.readREC.toNat / 2 ^ 5 % 1024 / 10 ^ (2 - j.val) % 10 := by
    rw [hdigit, chr_dig_toNat, mnumField_toNat]
  have hhundreds : s.readREC.toNat / 2 ^ 5 % 1024 / 10 ^ 2 % 10 = s.readREC.toNat / 2 ^ 5 % 1024 / 10 ^ 2 := by
    rw [mnumField_toNat] at hmnum
    exact Nat.mod_eq_of_lt (by omega)
  have hunits : s.readREC.toNat / 2 ^ 5 % 1024 / 10 ^ 0 = s.readREC.toNat / 2 ^ 5 % 1024 := Nat.div_one _
  exact ⟨hletter.trans (letterOf_mletField _), (digit 0).trans (congrArg (0x30 + ·) hhundreds), digit 1,
    (digit 2).trans (congrArg (0x30 + · % 10) hunits), hzero⟩

/-- Settles O55: the year is bits 36:30. -/
theorem gyearYieldsTheYear : Obligations.GyearYieldsTheYear :=
  fieldAccessor_yields (i := .gyear) 30 7 (by decide) fun _ => rfl

/-- Settles O56: the month is bits 29:26. -/
theorem gmonthYieldsTheMonth : Obligations.GmonthYieldsTheMonth :=
  fieldAccessor_yields (i := .gmonth) 26 4 (by decide) fun _ => rfl

/-- Settles O57: the day is bits 25:21. -/
theorem gdayYieldsTheDay : Obligations.GdayYieldsTheDay :=
  fieldAccessor_yields (i := .gday) 21 5 (by decide) fun _ => rfl

/-- Settles O58: the gender marker is bit 20. -/
theorem ggenYieldsTheGenderBit : Obligations.GgenYieldsTheGenderBit :=
  fieldAccessor_yields (i := .ggen) 20 1 (by decide) fun _ => rfl

/-- Settles O60: the result is the letter of the stored index. -/
theorem gchkYieldsTheCheckLetter : Obligations.GchkYieldsTheCheckLetter :=
  accessor_yields (i := .gchk) (fun _ => rfl) (P := fun r v => v = (i2l (r.toNat % 32)).setWidth 48)
    fun r => congrArg (BitVec.setWidth 48) (letterOf_chkField r)

end Sys2Proof.Machine

/-!
The exception family (60_exceptions.md). The status a command ends with is that of its effect, so a statement about a status is one
about which effects occur: a refusal exactly for the listed causes, an emptied record register exactly for PARSE of an invalid
string.
-/

namespace Sys2Proof.Machine

/-! ### The status of an effect (60_exceptions.md R220) -/

/-- An effect that writes `ST` leaves `BAD_OPERAND` exactly when it is a refusal. -/
theorem Effect.apply_st_eq_badOperand_iff {e : Effect} (he : Register.ST ∈ e.writes) (s : State) :
    (e.apply s).st = .badOperand ↔ e = .refuse := by
  cases e with
  | nothing => cases he
  | refuse | result | record | noRecord | string => simp

/-- An effect that writes `ST` leaves `INVALID_FORMAT` exactly when it empties the record register. -/
theorem Effect.apply_st_eq_invalidFormat_iff {e : Effect} (he : Register.ST ∈ e.writes) (s : State) :
    (e.apply s).st = .invalidFormat ↔ e = .noRecord := by
  cases e with
  | nothing => cases he
  | refuse | result | record | noRecord | string => simp

/-! ### Which commands are refused (60_exceptions.md R223) -/

theorem projectionEffect_eq_refuse_iff {s : State} {f : RecWord → ResWord} :
    projectionEffect s f = .refuse ↔ s.rv = false := by
  cases hrv : s.rv with
  | false => simp [projectionEffect_of_none f hrv]
  | true => simp [projectionEffect_of_record f hrv]

theorem d2l_eq_none_iff {c : Byte} : d2l c = none ↔ ¬isdigit c = true := by
  refine ⟨fun hnone hdigit => ?_, d2l_of_not_isdigit⟩
  obtain ⟨d, rfl⟩ := exists_eq_chr_of_isdigit hdigit
  rw [d2l_chr] at hnone
  cases hnone

theorem wellFormedRecord_eq_false_iff {r : RecWord} :
    wellFormedRecord r = false ↔ (yearField r).toNat > 99 ∨ (mnumField r).toNat > 999 := by
  rw [← Bool.not_eq_true, wellFormedRecord_iff]
  omega

/-- The effect of a command is a refusal exactly for a cause of the list. -/
theorem effect_eq_refuse_iff {i : Instr} {s : State} : effect i s = .refuse ↔ BadOperandCause s i := by
  cases i with
  | nop | ldstr | ldraw | l2i | i2l | l2m | m2l | l2d => simp [effect, BadOperandCause]
  | gname | gyear | gmonth | gday | ggen | gchk => simp only [effect, BadOperandCause, projectionEffect_eq_refuse_iff]
  | d2l c =>
    rw [BadOperandCause, ← isdigit_iff, ← d2l_eq_none_iff]
    cases h : d2l c <;> simp [effect, h]
  | emask => simp [effect, BadOperandCause]
  | parse =>
    simp only [effect, BadOperandCause, iff_false]
    split <;> simp
  | format =>
    rw [BadOperandCause, ← wellFormedRecord_eq_false_iff]
    cases hrv : s.rv <;> simp [effect, hrv]
  | gmuni =>
    refine ⟨fun hrefuse => ?_, effect_gmuni_of_refused⟩
    by_contra hcause
    obtain ⟨hrv, hmnum⟩ := not_or.mp hcause
    rw [effect_gmuni_of_record (Bool.eq_true_of_not_eq_false hrv) (not_lt.mp hmnum)] at hrefuse
    cases hrefuse

/-! ### Which command empties the record register (60_exceptions.md R221) -/

theorem effect_parse_eq_noRecord_iff {s : State} : effect .parse s = .noRecord ↔ ¬HoldsValidString s := by
  rw [← valid16_readSB]
  simp [effect]

/-- Only PARSE empties the record register: LDRAW, the other command that writes it, stores a record. -/
theorem eq_parse_of_effect_eq_noRecord {i : Instr} {s : State} (h : effect i s = .noRecord) : i = .parse := by
  have hwrites : Register.REC ∈ writes i := effect_writes_subset i s (by simp [h])
  rcases eq_parse_or_ldraw_of_mem_writes (.inl hwrites) with rfl | rfl
  · rfl
  · cases h

theorem effect_eq_noRecord_iff {i : Instr} {s : State} :
    effect i s = .noRecord ↔ i = .parse ∧ ¬HoldsValidString s := by
  constructor
  · intro h
    obtain rfl := eq_parse_of_effect_eq_noRecord h
    exact ⟨rfl, effect_parse_eq_noRecord_iff.mp h⟩
  · rintro ⟨rfl, hinvalid⟩
    exact effect_parse_eq_noRecord_iff.mpr hinvalid

/-! ### Steps that run no command (60_exceptions.md R235; log 8, log 9) -/

theorem step_idle {s : State} (hin : s.inbox = []) : step s = .next s := by
  simp only [step, hin]

theorem step_portConflict {s : State} {rest : List HostEvent} (hin : s.inbox = .portConflict :: rest) :
    step s = .fault .portConflict := by
  simp only [step, hin]

theorem step_resetDuringCommand {s : State} {rest : List HostEvent} (hin : s.inbox = .resetDuringCommand :: rest) :
    step s = .fault .resetDuringCommand := by
  simp only [step, hin]

/-! ### The obligations -/

/-- Settles O20: the listed causes are those of a refusal, which changes `ST` alone; of the effects that write `ST` no other
leaves `BAD_OPERAND`. -/
theorem badOperandHasExactlyTheseCauses : Obligations.BadOperandHasExactlyTheseCauses := by
  refine fun i s => ⟨fun hcause => refused_of_effect_refuse (effect_eq_refuse_iff.mpr hcause), fun hcause hi => ?_⟩
  refine ⟨_, exec_eq_apply i s, ?_⟩
  rwa [Ne, Effect.apply_st_eq_badOperand_iff (ST_mem_effect_writes hi s), effect_eq_refuse_iff]

/-- Settles O21: of the effects that write `ST` only the emptied record register leaves `INVALID_FORMAT`, and only PARSE of an
invalid string has that effect. -/
theorem invalidFormatOnlyFromParse : Obligations.InvalidFormatOnlyFromParse := by
  intro i s t hi hexec
  rw [eq_apply_of_exec hexec, Effect.apply_st_eq_invalidFormat_iff (ST_mem_effect_writes hi s), effect_eq_noRecord_iff]

/-- Settles O8: an illegal word raises its status in the state that accepted it, and accepting touches no register. -/
theorem illegalWordChangesOnlyStatus : Obligations.IllegalWordChangesOnlyStatus := by
  rintro s p rest hin ⟨e, hdec⟩
  exact ⟨_, step_illegal hin hdec, onlyStatus_raise (s.accept p rest) .illegalCommand⟩

/-- Settles O12: one equation of `step` for each of the three inboxes. -/
theorem stepsWithNoCommandPresented : Obligations.StepsWithNoCommandPresented :=
  fun _ _ => ⟨step_idle, step_portConflict, step_resetDuringCommand⟩

end Sys2Proof.Machine

/-!
The reset family (70_reset_and_hazards.md). The reset event leaves the registers as `State.reset` has them, with no record and no
valid string, and this decides how each command ends when it is the first. A host that keeps its duties presents only events on
which a step completes, and no step adds one.
-/

namespace Sys2Proof.Machine

/-! ### The reset event (70_reset_and_hazards.md R250) -/

theorem step_reset {s : State} {rest : List HostEvent} (hin : s.inbox = .reset :: rest) :
    step s = .next (s.takeReset rest) := by
  simp only [step, hin]

theorem takeReset_registers (s : State) (rest : List HostEvent) :
    (s.takeReset rest).readREC = 0 ∧ (s.takeReset rest).rv = false ∧
      (∀ a : Fin 16, (s.takeReset rest).sb.cell a = 0x00#8) ∧ (s.takeReset rest).slen = 0 ∧
      (s.takeReset rest).res = 0 ∧ (s.takeReset rest).st.code = 0 :=
  ⟨rfl, rfl, fun _ => rfl, rfl, rfl, rfl⟩

/-! ### How a command ends (70_reset_and_hazards.md R251; 60_exceptions.md R223) -/

theorem refused_of_badOperandCause {i : Instr} {s : State} (h : BadOperandCause s i) :
    ∃ t, exec i s = .next t ∧ OnlyStatus .badOperand s t :=
  refused_of_effect_refuse (effect_eq_refuse_iff.mpr h)

theorem Effect.eq_result_of_writes {e : Effect} (h : e.writes = [.RES, .ST]) : ∃ v, e = .result v := by
  cases e with
  | result v => exact ⟨v, rfl⟩
  | nothing | refuse | record | noRecord | string => simp at h

/-- A command whose row is `RES` and `ST` yields a result unless there is a cause to refuse it. -/
theorem yields_of_not_badOperandCause {i : Instr} {s : State} (hrow : writes i = [.RES, .ST])
    (hcause : ¬BadOperandCause s i) : ∃ t, exec i s = .next t ∧ OnlyResult s t := by
  have hwrites : (effect i s).writes = writes i := (effect_writes i s).resolve_left (mt effect_eq_refuse_iff.mp hcause)
  obtain ⟨v, hv⟩ := Effect.eq_result_of_writes (hwrites.trans hrow)
  exact ⟨_, exec_of_effect_result hv, onlyResult_yieldResult s v⟩

/-- PARSE of an invalid string empties a record register that is already empty, so it changes `ST` alone. -/
theorem exec_parse_of_no_record {s : State} (hstring : ¬HoldsValidString s) (hrec : s.readREC = 0) (hrv : s.rv = false) :
    ∃ t, exec .parse s = .next t ∧ OnlyStatus .invalidFormat s t ∧ t.readREC = 0 ∧ t.rv = false := by
  obtain ⟨hrec', hrv', hst⟩ := apply_effect_parse_of_error
    (parse_of_not_valid16 Config.params (mt (valid16_readSB s).mp hstring))
  obtain ⟨hres, hsame, hhost⟩ := apply_effect_parse_frame s
  exact ⟨_, exec_eq_apply .parse s,
    ⟨hst, hres, ⟨hrec'.trans hrec.symm, hrv'.trans hrv.symm⟩, hsame, hhost⟩, hrec', hrv'⟩

/-! ### A host that keeps its duties (70_reset_and_hazards.md R256, R257) -/

theorem HostWellBehaved.of_inbox_cons {s t : State} {e : HostEvent} (hs : HostWellBehaved s)
    (hin : s.inbox = e :: t.inbox) : HostWellBehaved t :=
  fun e' he' => hs e' (hin ▸ List.mem_cons_of_mem e he')

/-- A step from a host that keeps its duties completes, and no step adds an event. -/
theorem HostWellBehaved.step_completes {s : State} (hs : HostWellBehaved s) :
    ∃ t, step s = .next t ∧ HostWellBehaved t := by
  cases hin : s.inbox with
  | nil => exact ⟨s, step_idle hin, hs⟩
  | cons e rest =>
    obtain ⟨hconflict, hduring⟩ := hs e (hin ▸ List.mem_cons_self)
    cases e with
    | command p =>
      obtain ⟨t, hstep, -, rfl⟩ := everyPresentedWordCompletes s p rest hin
      exact ⟨t, hstep, hs.of_inbox_cons hin⟩
    | reset => exact ⟨_, step_reset hin, hs.of_inbox_cons hin⟩
    | portConflict => exact absurd rfl hconflict
    | resetDuringCommand => exact absurd rfl hduring

/-! ### The obligations -/

/-- Settles O10: the state after reset is one that the reset event leaves, and so is the state after a step that takes that
event. -/
theorem resetSetsEveryRegister : Obligations.ResetSetsEveryRegister :=
  ⟨takeReset_registers State.reset [], fun s rest hin => ⟨_, step_reset hin, takeReset_registers s rest⟩⟩

/-- Settles O11: after reset there is no record and the length is 0, so EMASK, FORMAT and the accessors have a cause to be
refused and PARSE finds no valid string; a table command has a cause only in its own operand, which only D2L restricts. -/
theorem firstCommandAfterReset : Obligations.FirstCommandAfterReset := by
  intro p rest s
  have hrv : s.rv = false := rfl
  have hslen : s.slen ≠ 16#8 := (by decide : State.reset.slen ≠ 16#8)
  have hstring : ¬HoldsValidString s := fun ⟨hlen, _⟩ => hslen hlen
  refine ⟨exec_eq_apply .nop s, ?loads, fun c => ?tables, fun c hc => ?digit, fun c hc => refused_of_badOperandCause hc,
    refused_of_badOperandCause hslen, exec_parse_of_no_record hstring rfl hrv, ?needRecord⟩
  case loads =>
    have hst : ∀ i ∈ [Instr.ldstr, .ldraw], ((effect i s).apply s).st = .ok := by simp [effect]
    exact fun i hi => ⟨_, exec_eq_apply i s, hst i hi⟩
  case tables =>
    have hrow : ∀ i ∈ [Instr.l2i c, .i2l c, .l2m c, .m2l c, .l2d c], writes i = [.RES, .ST] ∧ ¬BadOperandCause s i := by
      simp [writes, BadOperandCause]
    intro i hi
    obtain ⟨hwrites, hcause⟩ := hrow i hi
    exact yields_of_not_badOperandCause hwrites hcause
  case digit => exact yields_of_not_badOperandCause (i := .d2l c) rfl (not_not_intro hc)
  case needRecord =>
    have hcause : ∀ i ∈ [Instr.format, .gname, .gyear, .gmonth, .gday, .ggen, .gmuni, .gchk], BadOperandCause s i := by
      simp [BadOperandCause, hrv]
    exact fun i hi => refused_of_badOperandCause (hcause i hi)

/-- Settles O13, by induction on the number of steps: each step completes and leaves a host that keeps its duties. -/
theorem wellBehavedHostNeverMeetsAStop : Obligations.WellBehavedHostNeverMeetsAStop := by
  intro n
  induction n with
  | zero => exact fun s hs => ⟨s, rfl, hs⟩
  | succ n ih =>
    intro s hs
    obtain ⟨u, hstep, hu⟩ := hs.step_completes
    obtain ⟨t, hrun, ht⟩ := ih u hu
    exact ⟨t, run_succ_eq_next_iff.mpr ⟨u, hstep, hrun⟩, ht⟩

end Sys2Proof.Machine
